-- ==== Sys2Proof/Word.lean ====
section
/-! DEFINITION. The widths of the BitCursor unit: a buffer element (00_scope R5, BYTE_W = 8), a command word
(30_encoding R61, CMD_W = 32) and the VALUE field of a response (30_encoding R68, RES_W = 64). -/

namespace Sys2Proof

/-- One element of the buffer (10_state R20). -/
abbrev Byte := BitVec 8

/-- One command word (30_encoding R61). -/
abbrev Word := BitVec 32

/-- The 64 bits of the response's VALUE field (30_encoding R68). -/
abbrev Value := BitVec 64

end Sys2Proof
end

