-- ==== Sys2Proof/Config.lean ====
section
/-! DEFINITION. What an implementation fixes (the capacity BUF_CAP) and the free values of the spec (the VALUE of a
result that does not fit 64 bits). -/

namespace Sys2Proof

/-- The open parameters of 00_scope R5 that a rule depends on. POS_W is no field, because positions are natural
numbers (R6; log entry 8), and no rule depends on PLATFORM_BINDING (92_eei_decisions D27). -/
structure Config where
  /-- BUF_CAP: the largest buffer length in bytes, `none` for "unbounded" (R5, R84; log entry 7). -/
  bufCap : Option Nat
  deriving DecidableEq, Repr

/-- The constraint of 00_scope R6 on a finite BUF_CAP: every bit index fits the 64-bit VALUE of INDEX. -/
def Config.ok (c : Config) : Bool :=
  match c.bufCap with
  | none => true
  | some cap => decide (8 * cap + 7 < 2 ^ 64)

/-- DESIGN CHOICE, safe (log entry 5): the VALUE the response port shows where 30_encoding R69 and R70 leave it
unspecified ("a free draw, under no law"). It has no body, and the step applies it to a counter, so that no two draws
are related. -/
opaque Config.freeValue : Nat → Value

end Sys2Proof
end

