-- ==== Sys2Proof/Syntax.lean ====
section
/-! DEFINITION. The 19 commands of 30_encoding R63 (one constructor per row of spec/opcode_table.json), and a command
as it crosses the command port (10_state R32). -/

namespace Sys2Proof

/-- One command. A count operand is a natural number (its 24-bit range is `Instr.wf`); a payload is the sequence
`p[0], p[1], …`, whose length is the operand `N` (30_encoding R65, R72). -/
inductive Instr where
  /-- CREATE (40_cursor_and_buffer R80). -/
  | create (payload : List Byte)
  /-- APPEND (R82). -/
  | append (payload : List Byte)
  /-- TRIM (R85). -/
  | trim
  /-- INDEX (R88). -/
  | index
  /-- REWIND N (R89). -/
  | rewind (n : Nat)
  /-- RDBIT (41_bit_extraction R101). -/
  | rdbit
  /-- RDFLAG (R103). -/
  | rdflag
  /-- RDBITS N (R107). -/
  | rdbits (n : Nat)
  /-- SKIP N (R121). -/
  | skip (n : Nat)
  /-- RDU8 (R112). -/
  | rdu8
  /-- RDU16 (R113). -/
  | rdu16
  /-- RDU32 (R114). -/
  | rdu32
  /-- RDU64 (R115). -/
  | rdu64
  /-- RDI8 (R116). -/
  | rdi8
  /-- RDI16 (R117). -/
  | rdi16
  /-- RDI32 (R118). -/
  | rdi32
  /-- RDI64 (R119). -/
  | rdi64
  /-- RDUE (42_exp_golomb R131). -/
  | rdue
  /-- RDSE (R136). -/
  | rdse
  deriving DecidableEq, Repr

/-- What the host puts on the command port: a word and, for CREATE and APPEND, the payload bytes that follow it, first
byte first (10_state R32, 30_encoding R65). -/
structure Command where
  word : Word
  payload : List Byte
  deriving DecidableEq, Repr

end Sys2Proof
end

