-- ==== Sys2Proof/WellFormed.lean ====
section
/-! DEFINITION. Which commands the encoding can express: the operand `N` is a 24-bit number (30_encoding R61, R64). -/

namespace Sys2Proof

/-- CNT_W = 24 (00_scope R5): counts and payload lengths are below this. -/
def countLimit : Nat := 2 ^ 24

/-- The operand, or the payload length that stands for it, fits 24 bits (30_encoding R64, R65). -/
def Instr.wf : Instr → Bool
  | .create p => decide (p.length < countLimit)
  | .append p => decide (p.length < countLimit)
  | .rewind n => decide (n < countLimit)
  | .rdbits n => decide (n < countLimit)
  | .skip n => decide (n < countLimit)
  | .trim => true
  | .index => true
  | .rdbit => true
  | .rdflag => true
  | .rdu8 => true
  | .rdu16 => true
  | .rdu32 => true
  | .rdu64 => true
  | .rdi8 => true
  | .rdi16 => true
  | .rdi32 => true
  | .rdi64 => true
  | .rdue => true
  | .rdse => true

end Sys2Proof
end

