-- ==== Sys2Proof/Decode.lean ====
section
/-! DEFINITION. The decoder of 30_encoding R75 (total: every word with any payload is a command or is rejected by
name), the encoder, and the opcode table of R63 as rows of mask and pattern. The bit patterns are the spec's own
decision (92_eei_decisions D3 to D7). -/

namespace Sys2Proof

/-- Why a word with its payload is no command; each is refused by the step (60_exceptions R166, safe). -/
inductive Reject where
  /-- `OP` is none of the 19 values (30_encoding R66). -/
  | reservedOpcode (op : Nat)
  /-- A format-Z opcode whose `N` is not 0 (30_encoding R62, R66). -/
  | operandNotZero (op n : Nat)
  /-- The payload is not the `n` bytes the word asks for (30_encoding R65; none for the formats Z and N, R62). -/
  | payloadLength (n given : Nat)
  deriving DecidableEq, Repr

/-- `OP = w[31:24]` (30_encoding R61). -/
def opField (w : Word) : Nat := w.toNat / 2 ^ 24

/-- `N = w[23:0]` (30_encoding R61). -/
def operandField (w : Word) : Nat := w.toNat % 2 ^ 24

/-- Format P: the payload has exactly `N` bytes (30_encoding R65). -/
def decodePayload (n : Nat) (payload : List Byte) (mk : List Byte → Instr) : Except Reject Instr :=
  if payload.length = n then .ok (mk payload) else .error (.payloadLength n payload.length)

/-- Format N: nothing follows the word (30_encoding R62). -/
def decodeCount (n : Nat) (payload : List Byte) (mk : Nat → Instr) : Except Reject Instr :=
  if payload.length = 0 then .ok (mk n) else .error (.payloadLength 0 payload.length)

/-- Format Z: `N` is 0 and nothing follows the word (30_encoding R62). -/
def decodePlain (op n : Nat) (payload : List Byte) (i : Instr) : Except Reject Instr :=
  if n = 0 then
    if payload.length = 0 then .ok i else .error (.payloadLength 0 payload.length)
  else .error (.operandNotZero op n)

/-- The opcode map of 30_encoding R63 applied to the fields of a word (R75). -/
def decodeFields (op n : Nat) (payload : List Byte) : Except Reject Instr :=
  match op with
  | 0x01 => decodePayload n payload .create
  | 0x02 => decodePayload n payload .append
  | 0x03 => decodePlain 0x03 n payload .trim
  | 0x04 => decodePlain 0x04 n payload .index
  | 0x05 => decodeCount n payload .rewind
  | 0x10 => decodePlain 0x10 n payload .rdbit
  | 0x11 => decodePlain 0x11 n payload .rdflag
  | 0x12 => decodeCount n payload .rdbits
  | 0x13 => decodeCount n payload .skip
  | 0x20 => decodePlain 0x20 n payload .rdu8
  | 0x21 => decodePlain 0x21 n payload .rdu16
  | 0x22 => decodePlain 0x22 n payload .rdu32
  | 0x23 => decodePlain 0x23 n payload .rdu64
  | 0x28 => decodePlain 0x28 n payload .rdi8
  | 0x29 => decodePlain 0x29 n payload .rdi16
  | 0x2A => decodePlain 0x2A n payload .rdi32
  | 0x2B => decodePlain 0x2B n payload .rdi64
  | 0x30 => decodePlain 0x30 n payload .rdue
  | 0x31 => decodePlain 0x31 n payload .rdse
  | op => .error (.reservedOpcode op)

/-- Decoding (30_encoding R75). -/
def decode (c : Command) : Except Reject Instr :=
  decodeFields (opField c.word) (operandField c.word) c.payload

/-- The opcode of a command (30_encoding R63). -/
def opcode : Instr → Nat
  | .create _ => 0x01
  | .append _ => 0x02
  | .trim => 0x03
  | .index => 0x04
  | .rewind _ => 0x05
  | .rdbit => 0x10
  | .rdflag => 0x11
  | .rdbits _ => 0x12
  | .skip _ => 0x13
  | .rdu8 => 0x20
  | .rdu16 => 0x21
  | .rdu32 => 0x22
  | .rdu64 => 0x23
  | .rdi8 => 0x28
  | .rdi16 => 0x29
  | .rdi32 => 0x2A
  | .rdi64 => 0x2B
  | .rdue => 0x30
  | .rdse => 0x31

/-- The operand `N` of a command: the count, the payload length, or 0 (30_encoding R62, R72). -/
def operand : Instr → Nat
  | .create p => p.length
  | .append p => p.length
  | .rewind n => n
  | .rdbits n => n
  | .skip n => n
  | .trim => 0
  | .index => 0
  | .rdbit => 0
  | .rdflag => 0
  | .rdu8 => 0
  | .rdu16 => 0
  | .rdu32 => 0
  | .rdu64 => 0
  | .rdi8 => 0
  | .rdi16 => 0
  | .rdi32 => 0
  | .rdi64 => 0
  | .rdue => 0
  | .rdse => 0

/-- The bytes that follow the word (30_encoding R65). -/
def payloadOf : Instr → List Byte
  | .create p => p
  | .append p => p
  | .rewind _ => []
  | .rdbits _ => []
  | .skip _ => []
  | .trim => []
  | .index => []
  | .rdbit => []
  | .rdflag => []
  | .rdu8 => []
  | .rdu16 => []
  | .rdu32 => []
  | .rdu64 => []
  | .rdi8 => []
  | .rdi16 => []
  | .rdi32 => []
  | .rdi64 => []
  | .rdue => []
  | .rdse => []

/-- Encoding: `w = op * 2^24 + n`, then the payload (30_encoding R75). -/
def encode (i : Instr) : Command :=
  { word := BitVec.ofNat 32 (opcode i * 2 ^ 24 + operand i), payload := payloadOf i }

/-- The three formats of 30_encoding R62. -/
inductive Format where
  | z
  | n
  | p
  deriving DecidableEq, Repr

/-- One row of spec/opcode_table.json: a word `w` selects it when `w AND mask = pattern` (30_encoding R63). -/
structure OpcodeRow where
  mnemonic : String
  format : Format
  pattern : Word
  mask : Word
  deriving DecidableEq, Repr

/-- The row selects the word (30_encoding R63). -/
def OpcodeRow.selects (r : OpcodeRow) (w : Word) : Bool := w &&& r.mask == r.pattern

/-- The opcode map of 30_encoding R63, as spec/opcode_table.json prints it. -/
def opcodeRows : List OpcodeRow :=
  [ ⟨"CREATE", .p, 0x01000000, 0xFF000000⟩,
    ⟨"APPEND", .p, 0x02000000, 0xFF000000⟩,
    ⟨"TRIM", .z, 0x03000000, 0xFFFFFFFF⟩,
    ⟨"INDEX", .z, 0x04000000, 0xFFFFFFFF⟩,
    ⟨"REWIND", .n, 0x05000000, 0xFF000000⟩,
    ⟨"RDBIT", .z, 0x10000000, 0xFFFFFFFF⟩,
    ⟨"RDFLAG", .z, 0x11000000, 0xFFFFFFFF⟩,
    ⟨"RDBITS", .n, 0x12000000, 0xFF000000⟩,
    ⟨"SKIP", .n, 0x13000000, 0xFF000000⟩ ] ++
  [ ⟨"RDU8", .z, 0x20000000, 0xFFFFFFFF⟩,
    ⟨"RDU16", .z, 0x21000000, 0xFFFFFFFF⟩,
    ⟨"RDU32", .z, 0x22000000, 0xFFFFFFFF⟩,
    ⟨"RDU64", .z, 0x23000000, 0xFFFFFFFF⟩,
    ⟨"RDI8", .z, 0x28000000, 0xFFFFFFFF⟩,
    ⟨"RDI16", .z, 0x29000000, 0xFFFFFFFF⟩,
    ⟨"RDI32", .z, 0x2A000000, 0xFFFFFFFF⟩,
    ⟨"RDI64", .z, 0x2B000000, 0xFFFFFFFF⟩,
    ⟨"RDUE", .z, 0x30000000, 0xFFFFFFFF⟩,
    ⟨"RDSE", .z, 0x31000000, 0xFFFFFFFF⟩ ]

/-- The mnemonic of a command (30_encoding R63, R74). -/
def Instr.mnemonic : Instr → String
  | .create _ => "CREATE"
  | .append _ => "APPEND"
  | .trim => "TRIM"
  | .index => "INDEX"
  | .rewind _ => "REWIND"
  | .rdbit => "RDBIT"
  | .rdflag => "RDFLAG"
  | .rdbits _ => "RDBITS"
  | .skip _ => "SKIP"
  | .rdu8 => "RDU8"
  | .rdu16 => "RDU16"
  | .rdu32 => "RDU32"
  | .rdu64 => "RDU64"
  | .rdi8 => "RDI8"
  | .rdi16 => "RDI16"
  | .rdi32 => "RDI32"
  | .rdi64 => "RDI64"
  | .rdue => "RDUE"
  | .rdse => "RDSE"

/-- The source's name of a command's operation (30_encoding R74). -/
def Instr.sourceName : Instr → String
  | .create _ => "create"
  | .append _ => "append"
  | .trim => "trim"
  | .index => "current_bit_index"
  | .rewind _ => "rewind"
  | .rdbit => "read_bit"
  | .rdflag => "read_flag"
  | .rdbits _ => "read_bits"
  | .skip _ => "skip"
  | .rdu8 => "read_uint(8)"
  | .rdu16 => "read_uint(16)"
  | .rdu32 => "read_uint(32)"
  | .rdu64 => "read_uint(64)"
  | .rdi8 => "read_int(8)"
  | .rdi16 => "read_int(16)"
  | .rdi32 => "read_int(32)"
  | .rdi64 => "read_int(64)"
  | .rdue => "read_unsigned_exp_golomb"
  | .rdse => "read_signed_exp_golomb"

/-- `n` bytes taken from the number `w`, its lowest eight bits first. -/
def bytesOf : Nat → Nat → List Byte
  | 0, _ => []
  | n + 1, w => BitVec.ofNat 8 w :: bytesOf n (w / 256)

/-- How many bytes follow a word: `N` for the formats P, none otherwise (30_encoding R62, R67). -/
def followingBytes (w : Word) : Nat :=
  match opField w with
  | 0x01 => operandField w
  | 0x02 => operandField w
  | _ => 0

/-- The command whose bits are `w`, numbered as spec/opcode_table.json numbers them: the word is bits 31..0, payload
byte `k` is bits `39 + 8k .. 32 + 8k`, and every bit from `nbits` on is 0. The command port carries whole words, so a
word has no byte order. DESIGN CHOICE (log entry 15): bits of the number above the word and its `N` payload bytes are
dropped, where 30_encoding R65 leaves a command given as one number open; so a payload that is too long cannot be
written this way, and `decode` alone is what refuses one. -/
def tableCommand (nbits w : Nat) : Command :=
  { word := BitVec.ofNat 32 (w % 2 ^ nbits)
    payload := bytesOf (followingBytes (BitVec.ofNat 32 (w % 2 ^ nbits))) (w % 2 ^ nbits / 2 ^ 32) }

/-- The decoder's reading of `tableCommand`, `none` where it rejects. -/
def decodeTableWord (nbits w : Nat) : Option Instr :=
  match decode (tableCommand nbits w) with
  | .ok i => some i
  | .error _ => none

end Sys2Proof
end

