-- ==== Sys2Proof/Machine/State.lean ====
section
/-! DEFINITION. The state of the unit as plain data (10_state R20 to R22), the command and response port around it
(R32 to R36), and the state after reset (R37, 70_reset_and_hazards R170). -/

namespace Sys2Proof.Machine

/-- The whole architectural state of the unit (10_state R29): the buffer and the cursor over it. -/
structure BitCursor where
  /-- `buf`, the bytes the unit owns; `buf[i]` is the byte at address `i` (10_state R20, 20_memory R40; log entry 9). -/
  buf : List Byte
  /-- `byte_offset` (10_state R21). -/
  byo : Nat
  /-- `bit_offset`, 0..7, counted from the most significant bit (10_state R22, R25). -/
  bio : Fin 8
  deriving DecidableEq, Repr

/-- The two error kinds (60_exceptions R150). -/
inductive ErrorKind where
  | bufferExhausted
  | invalidRewind
  deriving DecidableEq, Repr

/-- STATUS of a response; code 3 is never produced, so it has no name (30_encoding R71). -/
inductive Status where
  | ok
  | bufferExhausted
  | invalidRewind
  deriving DecidableEq, Repr

/-- The exact result of a command's rule, before it is laid into VALUE (30_encoding R68). -/
inductive Result where
  /-- INDEX, RDBIT, RDBITS, RDU8 to RDU64, RDUE. -/
  | nat (n : Nat)
  /-- RDI8 to RDI64, RDSE. -/
  | int (z : Int)
  /-- RDFLAG. -/
  | flag (b : Bool)
  deriving DecidableEq, Repr

/-- What one command answers (10_state R33, 30_encoding R68). -/
structure Response where
  status : Status
  /-- The exact result the command's rule gives, `none` where there is none; the port does not show it when it does not
  fit (30_encoding R70; log entry 4). -/
  result : Option Result
  /-- VALUE, `none` where it is not meaningful (30_encoding R69). -/
  value : Option Value
  deriving DecidableEq, Repr

/-- One interaction of the host with the unit (the table of 10_state R36). -/
inductive HostEvent where
  /-- The reset event. -/
  | reset
  /-- One command on the command port. -/
  | command (c : Command)
  /-- Two sources drive the port at once; outside the contract (20_memory R51). -/
  | unserialised (a b : Command)
  deriving DecidableEq, Repr

/-- The unit, its ports, its parameters, and the model's counter of free values. -/
structure State where
  /-- The unit's own state. -/
  cur : BitCursor
  /-- The host's interactions still to come, oldest first (log entry 1). -/
  port : List HostEvent
  /-- The response the last step put on the port, `none` where it gave none (log entry 2). -/
  resp : Option Response
  /-- The parameters of 00_scope R5; no step changes them (log entry 7). -/
  cfg : Config
  /-- How many free values have been drawn; the model's own field (log entry 5). -/
  draws : Nat
  deriving DecidableEq, Repr

/-- A step never faults: "Nothing in this spec is `fault` or `stuck`" (93_implementation_defined section 2), and the two
error statuses are next states (60_exceptions R154; log entry 14). So no constructor is raised by anyone. -/
inductive Fault where
  deriving DecidableEq, Repr

/-- The requests the model gives no meaning (60_exceptions R166). -/
inductive Refusal where
  /-- Raised by an arm of `exec` that has no meaning yet; no arm does. Safe. -/
  | notModelled (mnemonic : String)
  /-- Raised by the step for a word and payload that are no command (30_encoding R65, R66). Safe: nothing can be proved
  of a run that contains one. -/
  | undecodable (r : Reject)
  /-- Raised by CREATE and APPEND when the buffer would grow beyond BUF_CAP (40_cursor_and_buffer R84). Safe: the spec
  gives no behaviour. -/
  | overCapacity
  /-- Raised by the step when two sources drive the port at once (20_memory R51). Safe: the spec gives no behaviour. -/
  | unserialisedSource
  deriving DecidableEq, Repr

/-- The unit after reset: the empty buffer, position (0,0) (10_state R37, 70_reset_and_hazards R170). -/
def BitCursor.reset : BitCursor := { buf := [], byo := 0, bio := 0 }

/-- The machine after reset. The port is empty and no response stands; BUF_CAP is the default "unbounded" of 00_scope
R5; the counter starts at 0 (DESIGN CHOICE: log entries 1, 2, 5, 7). -/
def State.reset : State :=
  { cur := BitCursor.reset, port := [], resp := none, cfg := { bufCap := none }, draws := 0 }

end Sys2Proof.Machine
end

