-- ==== Sys2Proof/Machine/Ops.lean ====
section
/-! DEFINITION. The operations over the buffer and the cursor: the byte read MemRead, the single-bit read and the reads
built from it (41_bit_extraction R100, R106; 42_exp_golomb R130), the backward move (40_cursor_and_buffer R89), the
buffer's three reshapings (R80, R82, R85), and the delivery of an error (60_exceptions R155). -/

namespace Sys2Proof.Machine

/-- How a procedure ends: it returns a value, or it raises; either way with the cursor as it then is, since a raise
undoes nothing (00_scope R7). -/
inductive Attempt (α : Type) where
  | done (a : α) (c : BitCursor)
  | raised (e : ErrorKind) (c : BitCursor)
  deriving DecidableEq, Repr

/-- Go on with `f` after `x`; a raise in `x` ends the whole command (00_scope section 5, `raise`). -/
def Attempt.andThen {α β : Type} (x : Attempt α) (f : α → BitCursor → Attempt β) : Attempt β :=
  match x with
  | .done a c => f a c
  | .raised e c => .raised e c

/-- `pos = 8*byo + bio`, the bit index of the cursor (10_state R24). -/
def BitCursor.pos (c : BitCursor) : Nat := 8 * c.byo + c.bio.val

/-- The cursor over the same buffer at bit index `p`: `byo = p div 8`, `bio = p mod 8` (40_cursor_and_buffer R89). -/
def BitCursor.moveTo (c : BitCursor) (p : Nat) : BitCursor :=
  { c with byo := p / 8, bio := ⟨p % 8, Nat.mod_lt p (by decide)⟩ }

/-- `8*len(buf) - pos`, the bits not yet read (40_cursor_and_buffer R86). -/
def BitCursor.bitsLeft (c : BitCursor) : Nat := 8 * c.buf.length - c.pos

/-- MemRead(a, 1): `buf[a]`, nothing at or beyond `len(buf)` (00_scope section 5, 20_memory R40, R48). -/
def memRead (buf : List Byte) (a : Nat) : Option Byte := buf[a]?

/-- One bit forward: `bio + 1`, carrying into `byo` at 8 at once (41_bit_extraction R100, R104). -/
def BitCursor.advance (c : BitCursor) : BitCursor :=
  if h : c.bio.val + 1 < 8 then { c with bio := ⟨c.bio.val + 1, h⟩ }
  else { c with byo := c.byo + 1, bio := 0 }

/-- ReadBit() (41_bit_extraction R100): at or past the end it raises BufferExhausted and changes nothing; otherwise it
takes bit `7 - bio` of `buf[byo]` and moves one bit forward. -/
def readBit (c : BitCursor) : Attempt Nat :=
  match memRead c.buf c.byo with
  | none => .raised .bufferExhausted c
  | some b => .done (b.toNat / 2 ^ (7 - c.bio.val) % 2) c.advance

/-- ReadBits(n) from an accumulator: `acc <- acc*2 + ReadBit()`, `n` times (41_bit_extraction R106). -/
def readBitsFrom : Nat → Nat → BitCursor → Attempt Nat
  | 0, acc, c => .done acc c
  | n + 1, acc, c => (readBit c).andThen fun b c' => readBitsFrom n (acc * 2 + b) c'

/-- ReadBits(n) (41_bit_extraction R106). -/
def readBits (n : Nat) (c : BitCursor) : Attempt Nat := readBitsFrom n 0 c

/-- The leading-zero scan of ReadUE() (42_exp_golomb R130): it counts zeros until a 1 has been read. The first argument
only bounds the recursion: the loop runs at most `8*len(buf) - pos + 1` times (R134), and `readUE` gives that many, so
the first equation is never reached (`scanZeros_fuel` in Laws; log entry 13). -/
def scanZeros : Nat → Nat → BitCursor → Attempt Nat
  | 0, _, c => .raised .bufferExhausted c
  | k + 1, lz, c =>
    (readBit c).andThen fun b c' => if b = 1 then .done lz c' else scanZeros k (lz + 1) c'

/-- ReadUE() (42_exp_golomb R130): `2^lz - 1 + s`, with `s` the `lz` bits after the terminating 1. -/
def readUE (c : BitCursor) : Attempt Nat :=
  (scanZeros (c.bitsLeft + 1) 0 c).andThen fun lz c' =>
    (readBits lz c').andThen fun s c'' => .done (2 ^ lz - 1 + s) c''

/-- The backward move of REWIND N: the test before anything moves, then the subtraction (40_cursor_and_buffer R89,
R90). -/
def BitCursor.rewind (n : Nat) (c : BitCursor) : Attempt Unit :=
  if c.pos < n then .raised .invalidRewind c else .done () (c.moveTo (c.pos - n))

/-- A new cursor at bit 0 of byte 0 of `p` (40_cursor_and_buffer R80). -/
def BitCursor.over (p : List Byte) : BitCursor := { buf := p, byo := 0, bio := 0 }

/-- The buffer extended at its end, the position kept (40_cursor_and_buffer R82, R83). -/
def BitCursor.extend (p : List Byte) (c : BitCursor) : BitCursor := { c with buf := c.buf ++ p }

/-- The bytes strictly before `byo` dropped, `byo` 0, `bio` kept (40_cursor_and_buffer R85). -/
def BitCursor.trimmed (c : BitCursor) : BitCursor := { c with buf := c.buf.drop c.byo, byo := 0 }

/-- A buffer of `len` bytes is within BUF_CAP (40_cursor_and_buffer R84). -/
def State.hasRoom (s : State) (len : Nat) : Bool :=
  match s.cfg.bufCap with
  | none => true
  | some cap => decide (len ≤ cap)

/-- The STATUS an error kind is reported as (30_encoding R71). -/
def ErrorKind.status : ErrorKind → Status
  | .bufferExhausted => .bufferExhausted
  | .invalidRewind => .invalidRewind

/-- Delivery of an error, the unit's only "exception": the STATUS of the failing command's response, no value, and
nothing else (60_exceptions R155; 30_encoding R69). -/
def State.deliver (e : ErrorKind) (s : State) : State :=
  { s with resp := some { status := e.status, result := none, value := none } }

/-- End a command: the cursor is where the procedure left it; a value goes to `answer`, an error is delivered
(60_exceptions R154). -/
def State.conclude {α : Type} (s : State) (r : Attempt α) (answer : α → State → State) :
    Host.Outcome State Fault Refusal :=
  match r with
  | .done a c => .next (answer a { s with cur := c })
  | .raised e c => .next (State.deliver e { s with cur := c })

end Sys2Proof.Machine
end

