-- ==== Sys2Proof/Machine/Operands.lean ====
section
/-! DEFINITION. The operand widths and the conversions of results: the fixed-width reads (41_bit_extraction R112 to
R120), the two's-complement reading of a pattern (R120) and the zig-zag mapping (42_exp_golomb R136, R137). -/

namespace Sys2Proof.Machine

/-- `signed_w(u)`: the two's-complement reading of a `w`-bit pattern (00_scope section 5, 41_bit_extraction R120; log
entry 17). -/
def signedOf (w u : Nat) : Int :=
  if u < 2 ^ (w - 1) then (u : Int) else (u : Int) - 2 ^ w

/-- `read_uint(w)`: ReadBits(w) (41_bit_extraction R112 to R115). -/
def readUint (w : Nat) (c : BitCursor) : Attempt Nat := readBits w c

/-- `read_int(w)`: ReadBits(w) reinterpreted (41_bit_extraction R120). -/
def readInt (w : Nat) (c : BitCursor) : Attempt Int :=
  (readBits w c).andThen fun u c' => .done (signedOf w u) c'

/-- The zig-zag mapping: odd `v` to `(v+1)/2`, even `v` to `-(v/2)` (42_exp_golomb R136). -/
def zigzag (v : Nat) : Int :=
  if v % 2 = 1 then (((v + 1) / 2 : Nat) : Int) else -((v / 2 : Nat) : Int)

end Sys2Proof.Machine
end

