-- ==== Sys2Proof/Machine/Flags.lean ====
section
/-! DEFINITION. The unit has no flags (10_state R38). What a processor's flags would tell is the response, so this file
holds the response encoding (30_encoding R68 to R71): the STATUS code and how a result is laid into VALUE. -/

namespace Sys2Proof.Machine

/-- The two bits of STATUS (30_encoding R71). -/
def Status.code : Status → BitVec 2
  | .ok => 0
  | .bufferExhausted => 1
  | .invalidRewind => 2

/-- What the response port shows: STATUS and, where it is meaningful, VALUE; never the exact result itself (30_encoding
R68 to R70). -/
def Response.shown (r : Response) : BitVec 2 × Option Value := (r.status.code, r.value)

/-- `OK` with no value: CREATE, APPEND, TRIM, REWIND, SKIP (30_encoding R68, R69). -/
def State.answerNone (s : State) : State :=
  { s with resp := some { status := .ok, result := none, value := none } }

/-- `OK` with a result that VALUE shows. -/
def State.answerExact (r : Result) (v : Value) (s : State) : State :=
  { s with resp := some { status := .ok, result := some r, value := some v } }

/-- `OK` with a result that VALUE does not show: VALUE is a free draw (30_encoding R69, R70; log entry 5). -/
def State.answerFree (r : Result) (s : State) : State :=
  { s with
    resp := some { status := .ok, result := some r, value := some (Config.freeValue s.draws) }
    draws := s.draws + 1 }

/-- A natural number: `zext_64(n)` when `n < 2^64`, unspecified otherwise (30_encoding R68 to R70). -/
def State.answerNat (n : Nat) (s : State) : State :=
  if n < 2 ^ 64 then s.answerExact (.nat n) (BitVec.ofNat 64 n) else s.answerFree (.nat n)

/-- A boolean: 1 for true, 0 for false (30_encoding R68). -/
def State.answerFlag (b : Bool) (s : State) : State :=
  s.answerExact (.flag b) (if b then 1 else 0)

/-- An integer within 64 bits: `sext_64(z)`, the 64-bit two's-complement pattern of `z` (30_encoding R68). -/
def State.answerInt (z : Int) (s : State) : State :=
  s.answerExact (.int z) (BitVec.ofInt 64 z)

/-- The signed Exp-Golomb result of code value `v`: shown when `v ≤ 2^64 - 2`, unspecified from `2^64 - 1` on, even
where the signed result itself would fit (30_encoding R70, 42_exp_golomb R139). -/
def State.answerSigned (v : Nat) (s : State) : State :=
  if v < 2 ^ 64 - 1 then s.answerInt (zigzag v) else s.answerFree (.int (zigzag v))

end Sys2Proof.Machine
end

