-- ==== Sys2Proof/Machine/Bits.lean ====
section
/-! DEFINITION. The meanings of the bit-extraction commands (41_bit_extraction R100 to R126). -/

namespace Sys2Proof.Machine

/-- RDBIT (R101, R102). -/
def execRdbit (s : State) : Host.Outcome State Fault Refusal :=
  s.conclude (readBit s.cur) State.answerNat

/-- RDFLAG (R103). -/
def execRdflag (s : State) : Host.Outcome State Fault Refusal :=
  s.conclude (readBit s.cur) fun b t => t.answerFlag (b == 1)

/-- RDBITS N (R107, R125). -/
def execRdbits (n : Nat) (s : State) : Host.Outcome State Fault Refusal :=
  s.conclude (readBits n s.cur) State.answerNat

/-- SKIP N (R121). -/
def execSkip (n : Nat) (s : State) : Host.Outcome State Fault Refusal :=
  s.conclude (readBits n s.cur) fun _ t => t.answerNone

/-- RDU8 (R112). -/
def execRdu8 (s : State) : Host.Outcome State Fault Refusal :=
  s.conclude (readUint 8 s.cur) State.answerNat

/-- RDU16 (R113). -/
def execRdu16 (s : State) : Host.Outcome State Fault Refusal :=
  s.conclude (readUint 16 s.cur) State.answerNat

/-- RDU32 (R114). -/
def execRdu32 (s : State) : Host.Outcome State Fault Refusal :=
  s.conclude (readUint 32 s.cur) State.answerNat

/-- RDU64 (R115). -/
def execRdu64 (s : State) : Host.Outcome State Fault Refusal :=
  s.conclude (readUint 64 s.cur) State.answerNat

/-- RDI8 (R116). -/
def execRdi8 (s : State) : Host.Outcome State Fault Refusal :=
  s.conclude (readInt 8 s.cur) State.answerInt

/-- RDI16 (R117). -/
def execRdi16 (s : State) : Host.Outcome State Fault Refusal :=
  s.conclude (readInt 16 s.cur) State.answerInt

/-- RDI32 (R118). -/
def execRdi32 (s : State) : Host.Outcome State Fault Refusal :=
  s.conclude (readInt 32 s.cur) State.answerInt

/-- RDI64 (R119). -/
def execRdi64 (s : State) : Host.Outcome State Fault Refusal :=
  s.conclude (readInt 64 s.cur) State.answerInt

end Sys2Proof.Machine
end

