-- ==== Sys2Proof/Machine/Buffer.lean ====
section
/-! DEFINITION. The meanings of the buffer and cursor commands (40_cursor_and_buffer R80 to R94). -/

namespace Sys2Proof.Machine

/-- CREATE N, p (R80, R81); refused beyond BUF_CAP before anything changes (R84, 60_exceptions R160). -/
def execCreate (p : List Byte) (s : State) : Host.Outcome State Fault Refusal :=
  if s.hasRoom p.length then .next (State.answerNone { s with cur := BitCursor.over p })
  else .refused .overCapacity

/-- APPEND N, p (R82, R83); refused beyond BUF_CAP before anything changes (R84, 60_exceptions R160). -/
def execAppend (p : List Byte) (s : State) : Host.Outcome State Fault Refusal :=
  if s.hasRoom (s.cur.buf.length + p.length) then
    .next (State.answerNone { s with cur := s.cur.extend p })
  else .refused .overCapacity

/-- TRIM (R85). -/
def execTrim (s : State) : Host.Outcome State Fault Refusal :=
  .next (State.answerNone { s with cur := s.cur.trimmed })

/-- INDEX (R88, 30_encoding R69). -/
def execIndex (s : State) : Host.Outcome State Fault Refusal :=
  .next (s.answerNat s.cur.pos)

/-- REWIND N (R89, R90). -/
def execRewind (n : Nat) (s : State) : Host.Outcome State Fault Refusal :=
  s.conclude (s.cur.rewind n) fun _ t => t.answerNone

end Sys2Proof.Machine
end

