-- ==== Sys2Proof/Machine/Golomb.lean ====
section
/-! DEFINITION. The meanings of the Exp-Golomb commands (42_exp_golomb R130 to R142). -/

namespace Sys2Proof.Machine

/-- RDUE (R131, R132, R141). -/
def execRdue (s : State) : Host.Outcome State Fault Refusal :=
  s.conclude (readUE s.cur) State.answerNat

/-- RDSE (R136, R138, R139). -/
def execRdse (s : State) : Host.Outcome State Fault Refusal :=
  s.conclude (readUE s.cur) State.answerSigned

end Sys2Proof.Machine
end

