-- ==== Sys2Proof/Machine/Dispatch.lean ====
section
/-! DEFINITION. One arm per command (30_encoding R63), each a call of its meaning. -/

namespace Sys2Proof.Machine

def exec (i : Instr) (s : State) : Host.Outcome State Fault Refusal :=
  match i with
  | .create p => Sys2Proof.Machine.execCreate p s
  | .append p => Sys2Proof.Machine.execAppend p s
  | .trim => Sys2Proof.Machine.execTrim s
  | .index => Sys2Proof.Machine.execIndex s
  | .rewind n => Sys2Proof.Machine.execRewind n s
  | .rdbit => Sys2Proof.Machine.execRdbit s
  | .rdflag => Sys2Proof.Machine.execRdflag s
  | .rdbits n => Sys2Proof.Machine.execRdbits n s
  | .skip n => Sys2Proof.Machine.execSkip n s
  | .rdu8 => Sys2Proof.Machine.execRdu8 s
  | .rdu16 => Sys2Proof.Machine.execRdu16 s
  | .rdu32 => Sys2Proof.Machine.execRdu32 s
  | .rdu64 => Sys2Proof.Machine.execRdu64 s
  | .rdi8 => Sys2Proof.Machine.execRdi8 s
  | .rdi16 => Sys2Proof.Machine.execRdi16 s
  | .rdi32 => Sys2Proof.Machine.execRdi32 s
  | .rdi64 => Sys2Proof.Machine.execRdi64 s
  | .rdue => Sys2Proof.Machine.execRdue s
  | .rdse => Sys2Proof.Machine.execRdse s

end Sys2Proof.Machine
end

