-- ==== Sys2Proof/Machine/Port.lean ====
section
/-! DEFINITION. The command port: what the unit does with one interaction of the host (the table of 10_state R36), and
with none. -/

namespace Sys2Proof.Machine

/-- No interaction stands at the port: "between commands the unit simply holds its state" (60_exceptions R165); a
response is not kept (10_state R33; log entries 2, 3). -/
def State.hold (s : State) : State := { s with resp := none }

/-- The reset event: the unit is in the state of 10_state R37; the parameters, the host's further interactions and the
model's counter are not the unit's (log entry 12). -/
def State.hardReset (s : State) : State := { s with cur := BitCursor.reset, resp := none }

/-- One command: decoded before any state is touched, then executed to completion (10_state R34, 60_exceptions R160). -/
def runCommand (c : Command) (s : State) : Host.Outcome State Fault Refusal :=
  match decode c with
  | .ok i => exec i s
  | .error r => .refused (.undecodable r)

/-- One interaction, already taken off the port (10_state R36, 20_memory R51). -/
def runEvent (e : HostEvent) (s : State) : Host.Outcome State Fault Refusal :=
  match e with
  | .reset => .next s.hardReset
  | .command c => runCommand c s
  | .unserialised _ _ => .refused .unserialisedSource

/-- Take the oldest interaction off the port and run it; hold when there is none (10_state R31, R34). -/
def takeEvent (s : State) : Host.Outcome State Fault Refusal :=
  match s.port with
  | [] => .next s.hold
  | e :: rest => runEvent e { s with port := rest }

end Sys2Proof.Machine
end

