-- ==== Sys2Proof/Machine/Step.lean ====
section
/-! DEFINITION. One step of the machine (10_state R34), and a command placed where the next step takes it. -/

namespace Sys2Proof.Machine

/-- One step: one interaction of the host, or none. -/
def step (s : State) : Host.Outcome State Fault Refusal := takeEvent s

/-- `s` with the command whose bits are `w` standing first at the command port. The unit has no program counter and
fetches nothing (10_state R31), so this stands for the host issuing that command next (log entry 1). -/
def State.withFetchWord (s : State) (nbits w : Nat) : State :=
  { s with port := .command (tableCommand nbits w) :: s.port }

end Sys2Proof.Machine
end

