-- ==== Sys2Proof/Safety.lean ====
section
/-! DEFINITION. The terms the claims are stated in: the invariants of 10_state R24 to R27 and 40_cursor_and_buffer R84,
the closed forms of 20_memory R41 and R57, the bit-by-bit walk of 40_cursor_and_buffer R89, command lists
(10_state R31), and the buffer seen as address and byte pairs. -/

namespace Sys2Proof.Machine

/-- `0 ≤ pos ≤ 8*len(buf)` (10_state R24); `bio` in 0..7 (R25) holds by its type. -/
abbrev BitCursor.Inv (c : BitCursor) : Prop := c.pos ≤ 8 * c.buf.length

/-- What every state of a run satisfies: the cursor lies in the buffer (10_state R27), the buffer is within BUF_CAP
(40_cursor_and_buffer R84), and BUF_CAP meets 00_scope R6. -/
abbrev State.Inv (s : State) : Prop :=
  s.cur.Inv ∧ s.hasRoom s.cur.buf.length = true ∧ s.cfg.ok = true

/-- The bit of index `p`: `(buf[p div 8] div 2^(7 - p mod 8)) mod 2` (20_memory R41); 0 past the end, where no claim
looks. -/
def bitAt (buf : List Byte) (p : Nat) : Nat :=
  match memRead buf (p / 8) with
  | none => 0
  | some b => b.toNat / 2 ^ (7 - p % 8) % 2

/-- The bits of indices `p .. p+n-1`, in read order. -/
def bitsFrom (buf : List Byte) (p n : Nat) : List Nat := (List.range n).map fun j => bitAt buf (p + j)

/-- "accumulator starts at 0; each bit is incorporated as accumulator = accumulator*2 + bit" (41_bit_extraction R106). -/
def assemble (bits : List Nat) : Nat := bits.foldl (fun acc b => acc * 2 + b) 0

/-- The buffer as one big-endian number `B` (20_memory R57). -/
def bufNumber (buf : List Byte) : Nat := buf.foldl (fun acc b => acc * 256 + b.toNat) 0

/-- `(B div 2^(8L - P - n)) mod 2^n` (20_memory R57). -/
def fieldAt (buf : List Byte) (p n : Nat) : Nat :=
  bufNumber buf / 2 ^ (8 * buf.length - p - n) % 2 ^ n

/-- One backward step of the walk of 40_cursor_and_buffer R89. -/
def BitCursor.stepBack (c : BitCursor) : BitCursor :=
  if h : c.bio.val = 0 then { c with bio := 7, byo := c.byo - 1 }
  else { c with bio := ⟨c.bio.val - 1, by omega⟩ }

/-- `n` backward steps. -/
def BitCursor.walkBack : Nat → BitCursor → BitCursor
  | 0, c => c
  | n + 1, c => BitCursor.walkBack n c.stepBack

/-- How many bits a command of fixed length reads, `none` for the commands that read none or as many as the data says
(the rows RDBIT to RDI64 of 60_exceptions R153). -/
def bitCount : Instr → Option Nat
  | .create _ => none
  | .append _ => none
  | .trim => none
  | .index => none
  | .rewind _ => none
  | .rdbit => some 1
  | .rdflag => some 1
  | .rdbits n => some n
  | .skip n => some n
  | .rdu8 => some 8
  | .rdu16 => some 16
  | .rdu32 => some 32
  | .rdu64 => some 64
  | .rdi8 => some 8
  | .rdi16 => some 16
  | .rdi32 => some 32
  | .rdi64 => some 64
  | .rdue => none
  | .rdse => none

/-- The commands that reshape the buffer (10_state R20). -/
def reshapes : Instr → Bool
  | .create _ => true
  | .append _ => true
  | .trim => true
  | .index => false
  | .rewind _ => false
  | .rdbit => false
  | .rdflag => false
  | .rdbits _ => false
  | .skip _ => false
  | .rdu8 => false
  | .rdu16 => false
  | .rdu32 => false
  | .rdu64 => false
  | .rdi8 => false
  | .rdi16 => false
  | .rdi32 => false
  | .rdi64 => false
  | .rdue => false
  | .rdse => false

/-- The commands that may let `byo` fall (10_state R28). -/
def mayMoveBack : Instr → Bool
  | .create _ => true
  | .append _ => false
  | .trim => true
  | .index => false
  | .rewind _ => true
  | .rdbit => false
  | .rdflag => false
  | .rdbits _ => false
  | .skip _ => false
  | .rdu8 => false
  | .rdu16 => false
  | .rdu32 => false
  | .rdu64 => false
  | .rdi8 => false
  | .rdi16 => false
  | .rdi32 => false
  | .rdi64 => false
  | .rdue => false
  | .rdse => false

/-- The four commands whose VALUE the spec can leave unspecified with STATUS `OK` (30_encoding R69, R70). -/
def mayDraw : Instr → Bool
  | .create _ => false
  | .append _ => false
  | .trim => false
  | .index => true
  | .rewind _ => false
  | .rdbit => false
  | .rdflag => false
  | .rdbits _ => true
  | .skip _ => false
  | .rdu8 => false
  | .rdu16 => false
  | .rdu32 => false
  | .rdu64 => false
  | .rdi8 => false
  | .rdi16 => false
  | .rdi32 => false
  | .rdi64 => false
  | .rdue => true
  | .rdse => true

/-- The commands that return a value when their STATUS is `OK` (30_encoding R68). -/
def hasValue : Instr → Bool
  | .create _ => false
  | .append _ => false
  | .trim => false
  | .index => true
  | .rewind _ => false
  | .rdbit => true
  | .rdflag => true
  | .rdbits _ => true
  | .skip _ => false
  | .rdu8 => true
  | .rdu16 => true
  | .rdu32 => true
  | .rdu64 => true
  | .rdi8 => true
  | .rdi16 => true
  | .rdi32 => true
  | .rdi64 => true
  | .rdue => true
  | .rdse => true

/-- BUF_CAP lets the command in: only CREATE and APPEND are limited (40_cursor_and_buffer R84). -/
def State.admits (s : State) : Instr → Bool
  | .create p => s.hasRoom p.length
  | .append p => s.hasRoom (s.cur.buf.length + p.length)
  | .trim => true
  | .index => true
  | .rewind _ => true
  | .rdbit => true
  | .rdflag => true
  | .rdbits _ => true
  | .skip _ => true
  | .rdu8 => true
  | .rdu16 => true
  | .rdu32 => true
  | .rdu64 => true
  | .rdi8 => true
  | .rdi16 => true
  | .rdi32 => true
  | .rdi64 => true
  | .rdue => true
  | .rdse => true

/-- A command list, every command issued whatever the earlier statuses (10_state R31), with the responses in order;
`none` where a command is refused. -/
def runAll : List Instr → State → Option (List Response × State)
  | [], s => some ([], s)
  | i :: rest, s =>
    match exec i s with
    | .next t =>
      match t.resp, runAll rest t with
      | some r, some (rs, u) => some (r :: rs, u)
      | _, _ => none
    | .fault _ => none
    | .refused _ => none

/-- The response of a read that returned the natural number `n`, shown exactly (30_encoding R68). -/
def shownNat (n : Nat) : Response :=
  { status := .ok, result := some (.nat n), value := some (BitVec.ofNat 64 n) }

/-- The response of a command that returns nothing (30_encoding R69). -/
def plainOk : Response := { status := .ok, result := none, value := none }

/-- The response of a read that ran out (60_exceptions R151). -/
def exhausted : Response := { status := .bufferExhausted, result := none, value := none }

/-- The buffer as address and byte pairs, from address `a` on. -/
def Memory.cellsFrom : Nat → List Byte → List Host.Cell
  | _, [] => []
  | a, b :: rest => (a, b) :: Memory.cellsFrom (a + 1) rest

/-- The buffer as address and byte pairs (20_memory R40; log entry 9). -/
def Memory.cells (buf : List Byte) : List Host.Cell := Memory.cellsFrom 0 buf

/-- The addresses are `a, a+1, …` in order. -/
def Memory.wfFrom : Nat → List Host.Cell → Bool
  | _, [] => true
  | a, c :: rest => decide (c.1 = a) && Memory.wfFrom (a + 1) rest

/-- The canonical form of a buffer as cells: the addresses are 0, 1, 2, …, each once and in order (20_memory R40). An
address that is not listed has no value (R48). -/
def Memory.wf (m : List Host.Cell) : Bool := Memory.wfFrom 0 m

/-- The byte a cell list holds at an address. -/
def Memory.read (m : List Host.Cell) (a : Nat) : Option Byte :=
  (m.find? fun c => c.1 == a).map Prod.snd

end Sys2Proof.Machine
end

