-- ==== Sys2Proof/Certificates/Slice0/Obligations.lean ====
section
/-! DEFINITION. The statements about the model, from the numbered rules of spec/. A statement's docstring names the rule
it formalises, and says so where it rests on an inference or a decision that the spec marks as its own, or on a choice of
the model. -/

open Sys2Proof Sys2Proof.Machine

/-! Reset, the ports and the step -/

/-- 10_state R37 and 70_reset_and_hazards R170 (the spec's own decision D16): the unit is empty at position (0,0), the
state CREATE gives for the empty sequence. -/
def Obligations.ResetIsTheEmptyCursor : Prop :=
  State.reset.cur.buf = [] ∧ State.reset.cur.byo = 0 ∧ State.reset.cur.bio = 0 ∧
    State.reset.cur.pos = 0 ∧ State.reset.resp = none ∧
    ∃ t, exec (.create []) State.reset = .next t ∧ t.cur = State.reset.cur

/-- 10_state R36 and R37 (decisions D16, D25): the reset event leaves the unit in the reset state whatever it was. That the
host's further interactions and the parameters stay is the model's choice (log entry 12). -/
def Obligations.HostResetRestoresTheEmptyCursor : Prop :=
  ∀ (s : State) (rest : List HostEvent), s.port = .reset :: rest →
    ∃ t, step s = .next t ∧ t.cur = State.reset.cur ∧ t.resp = none ∧ t.port = rest ∧ t.cfg = s.cfg

/-- 10_state R31 and R34 (decision D2): the step decodes the command at the port and runs it; the port moves on by that one
interaction. -/
def Obligations.StepRunsTheDecodedCommand : Prop :=
  ∀ (s : State) (c : Command) (rest : List HostEvent) (i : Instr),
    s.port = .command c :: rest → decode c = .ok i → step s = exec i { s with port := rest }

/-- A command placed by `withFetchWord` is the one the next step runs (log entry 1: the model's command port). -/
def Obligations.PlacedCommandRunsNext : Prop :=
  ∀ (s : State) (nbits w : Nat) (i : Instr),
    decodeTableWord nbits w = some i → step (s.withFetchWord nbits w) = exec i s

/-- 60_exceptions R166 with 30_encoding R65, R66 and 20_memory R51 (decisions D5, D6, D25): a word that is no command, a
payload of another length, and a second source are refused before any state is touched. -/
def Obligations.UndefinedRequestsAreRefused : Prop :=
  (∀ (s : State) (c : Command) (rest : List HostEvent) (r : Reject),
      s.port = .command c :: rest → decode c = .error r → step s = .refused (.undecodable r)) ∧
    ∀ (s : State) (a b : Command) (rest : List HostEvent),
      s.port = .unserialised a b :: rest → step s = .refused .unserialisedSource

/-- 60_exceptions R165 ("between commands the unit simply holds its state"); that a step with nothing at the port shows no
response is the model's choice (log entry 3). -/
def Obligations.IdleStepHoldsTheUnit : Prop :=
  ∀ s : State, s.port = [] → ∃ t, step s = .next t ∧ t.cur = s.cur ∧ t.port = [] ∧ t.cfg = s.cfg ∧
    t.draws = s.draws ∧ t.resp = none

/-! Invariants and whole-machine rules -/

/-- 10_state R24 to R27 (R27 is the spec's own inference): every step, whatever the host sends and whether or not the
command fails, keeps the cursor within the buffer, the buffer within BUF_CAP and BUF_CAP within R6. -/
def Obligations.EveryStepKeepsTheCursorInTheBuffer : Prop :=
  ∀ s t : State, s.Inv → step s = .next t → t.Inv

/-- The invariant of `EveryStepKeepsTheCursorInTheBuffer` holds at reset (10_state R27, R37). -/
def Obligations.ResetIsWithinTheInvariant : Prop := State.reset.Inv

/-- 10_state R20: the buffer changes only by CREATE (replaced), APPEND (extended at the end) and TRIM (bytes before `byo`
dropped). -/
def Obligations.BufferChangesOnlyByCreateAppendTrim : Prop :=
  ∀ (i : Instr) (s t : State), exec i s = .next t →
    (∀ p, i = .create p → t.cur.buf = p) ∧
      (∀ p, i = .append p → t.cur.buf = s.cur.buf ++ p) ∧
      (i = .trim → t.cur.buf = s.cur.buf.drop s.cur.byo) ∧
      (reshapes i = false → t.cur.buf = s.cur.buf)

/-- 10_state R28: `byo` falls only by REWIND, TRIM and CREATE; the last two set it to 0. -/
def Obligations.ByteOffsetFallsOnlyByRewindTrimCreate : Prop :=
  ∀ (i : Instr) (s t : State), exec i s = .next t →
    (mayMoveBack i = false → s.cur.byo ≤ t.cur.byo) ∧
      (i = .trim → t.cur.byo = 0) ∧ (∀ p, i = .create p → t.cur.byo = 0)

/-- 10_state R29 (one command of it): what a command does and answers is a function of `(buf, byo, bio)`, the parameter
BUF_CAP aside; only a VALUE the spec leaves unspecified may differ (log entry 5), and it does not when the counters agree. -/
def Obligations.CommandDependsOnTheUnitAlone : Prop :=
  ∀ (i : Instr) (s s' t : State), s.cur = s'.cur → s.cfg = s'.cfg → exec i s = .next t →
    ∃ t' r r', exec i s' = .next t' ∧ t'.cur = t.cur ∧ t.resp = some r ∧ t'.resp = some r' ∧
      r'.status = r.status ∧ r'.result = r.result ∧
      (t.draws = s.draws → r'.value = r.value) ∧ (s.draws = s'.draws → r' = r)

/-- 10_state R23, R36 and R47 of 20_memory: the frame of every command: the port and the parameters are left alone, INDEX
leaves the cursor, and every byte of the buffer reads as before but for CREATE, TRIM and the bytes APPEND adds. The two
clauses on `draws` rest on no rule but on log entry 5 (DESIGN CHOICE, the model's own counter of free values): it moves
by at most one, and only for the four commands whose VALUE the spec can leave unspecified. -/
def Obligations.EveryCommandKeepsItsFrame : Prop :=
  ∀ (i : Instr) (s t : State), exec i s = .next t →
    t.port = s.port ∧ t.cfg = s.cfg ∧
      (mayDraw i = false → t.draws = s.draws) ∧
      (t.draws = s.draws ∨ t.draws = s.draws + 1) ∧
      (i = .index → t.cur = s.cur) ∧
      (reshapes i = false → ∀ a, memRead t.cur.buf a = memRead s.cur.buf a) ∧
      (∀ p, i = .append p → t.cur.byo = s.cur.byo ∧ t.cur.bio = s.cur.bio ∧
        ∀ a, a < s.cur.buf.length ∨ s.cur.buf.length + p.length ≤ a →
          memRead t.cur.buf a = memRead s.cur.buf a) ∧
      (i = .trim → t.cur.bio = s.cur.bio)

/-- 70_reset_and_hazards R180, 10_state R33 and 30_encoding R69 (D8, D11, D14 are the spec's own decisions): a command
BUF_CAP admits completes with exactly one response; a value stands in it exactly when the command has one and did not
fail; a command BUF_CAP does not admit is refused. -/
def Obligations.EveryAdmittedCommandAnswers : Prop :=
  ∀ (i : Instr) (s : State),
    (s.admits i = true → ∃ t r, exec i s = .next t ∧ t.resp = some r ∧
      (r.status = .ok → r.value.isSome = hasValue i ∧ r.result.isSome = hasValue i) ∧
      (r.status ≠ .ok → r.value = none ∧ r.result = none)) ∧
      (s.admits i = false → exec i s = .refused .overCapacity)

/-- 60_exceptions R151 with 41_bit_extraction R104 and R110 (inferences the spec marks as its own): after a
BufferExhausted the cursor is at the end of the same buffer, and nothing else is recorded. -/
def Obligations.ExhaustionLeavesTheCursorAtTheEnd : Prop :=
  ∀ (i : Instr) (s t : State) (r : Response), s.Inv → exec i s = .next t → t.resp = some r →
    r.status = .bufferExhausted →
    t = { s with cur := s.cur.moveTo (8 * s.cur.buf.length), resp := some exhausted } ∧
      t.cur.pos = 8 * t.cur.buf.length ∧ (bitCount i ≠ none ∨ i = .rdue ∨ i = .rdse)

/-- 60_exceptions R152: InvalidRewind, STATUS code 2, comes from REWIND N with N > pos alone, leaves the position unchanged and records
nothing. -/
def Obligations.InvalidRewindComesFromRewindAlone : Prop :=
  ∀ (i : Instr) (s t : State) (r : Response), exec i s = .next t → t.resp = some r →
    (r.status = .invalidRewind ↔ ∃ n, i = .rewind n ∧ s.cur.pos < n) ∧
      (r.status = .invalidRewind → r.shown = (2, none) ∧ t.cur = s.cur ∧
        t = { s with resp := some { status := .invalidRewind, result := none, value := none } })

/-- 30_encoding R71 (decision D9): the codes of STATUS; code 3 is never produced. -/
def Obligations.StatusCodesAreZeroOneTwo : Prop :=
  Status.code .ok = 0 ∧ Status.code .bufferExhausted = 1 ∧ Status.code .invalidRewind = 2 ∧
    ∀ st : Status, Status.code st ≠ 3

/-! Buffer and cursor commands -/

/-- 40_cursor_and_buffer R80 (D17 is the spec's own decision): CREATE over any payload BUF_CAP admits. -/
def Obligations.CreateStartsANewCursor : Prop :=
  ∀ (s : State) (p : List Byte), s.hasRoom p.length = true →
    exec (.create p) s =
      .next { s with cur := { buf := p, byo := 0, bio := 0 }, resp := some plainOk }

/-- 40_cursor_and_buffer R81: CREATE over the empty sequence is legal in every state and leaves the cursor of reset; there
every read of at least one bit fails with BufferExhausted, `RDBITS 0`, `SKIP 0`, `REWIND 0`, TRIM and INDEX succeed, and
APPEND makes the unit readable. -/
def Obligations.EmptyCreateFailsEveryReadUntilAppend : Prop :=
  ∀ s : State, ∃ t, exec (.create []) s = .next t ∧ t.cur = State.reset.cur ∧ t.resp = some plainOk ∧
    (∀ i n, bitCount i = some n → 0 < n → exec i t = .next { t with resp := some exhausted }) ∧
    (∀ i ∈ [Instr.rdue, .rdse], exec i t = .next { t with resp := some exhausted }) ∧
    exec (.rdbits 0) t = .next { t with resp := some (shownNat 0) } ∧
    (∀ i ∈ [Instr.skip 0, .rewind 0, .trim], exec i t = .next { t with resp := some plainOk }) ∧
    exec .index t = .next { t with resp := some (shownNat 0) } ∧
    ∀ (b : Byte) (rest : List Byte), s.hasRoom (b :: rest).length = true →
      ∃ u v, exec (.append (b :: rest)) t = .next u ∧ exec .rdbit u = .next v ∧
        v.resp = some (shownNat (b.toNat / 2 ^ 7))

/-- 40_cursor_and_buffer R82 and R83: APPEND extends the buffer at its end, every existing byte keeps its index, the
position does not move, and the appended bytes are readable by the next command. -/
def Obligations.AppendExtendsTheBufferAndKeepsThePosition : Prop :=
  ∀ (s : State) (p : List Byte), s.hasRoom (s.cur.buf.length + p.length) = true →
    ∃ t, exec (.append p) s = .next t ∧
      t = { s with
            cur := { buf := s.cur.buf ++ p, byo := s.cur.byo, bio := s.cur.bio }, resp := some plainOk } ∧
      t.cur.buf.length = s.cur.buf.length + p.length ∧ t.cur.pos = s.cur.pos ∧
      (∀ a < s.cur.buf.length, memRead t.cur.buf a = memRead s.cur.buf a) ∧
      (∀ k, memRead t.cur.buf (s.cur.buf.length + k) = memRead p k) ∧
      (s.cur.pos < 8 * (s.cur.buf.length + p.length) →
        ∃ u r, exec .rdbit t = .next u ∧ u.resp = some r ∧ r.status = .ok)

/-- 40_cursor_and_buffer R84 (decision D14): beyond a finite BUF_CAP, CREATE and APPEND are refused; up to it they are not;
with BUF_CAP unbounded the case never arises. -/
def Obligations.CapacityOverrunIsRefused : Prop :=
  (∀ (s : State) (p : List Byte) (cap : Nat), s.cfg.bufCap = some cap →
    (exec (.create p) s = .refused .overCapacity ↔ cap < p.length) ∧
      (exec (.append p) s = .refused .overCapacity ↔ cap < s.cur.buf.length + p.length)) ∧
    ∀ (s : State) (p : List Byte), s.cfg.bufCap = none →
      (∃ t, exec (.create p) s = .next t) ∧ ∃ t, exec (.append p) s = .next t

/-- 40_cursor_and_buffer R85: TRIM drops the bytes strictly before `byo`, sets `byo` to 0 and keeps `bio`. -/
def Obligations.TrimDropsTheBytesBeforeTheCursor : Prop :=
  ∀ s : State,
    exec .trim s =
      .next { s with
              cur := { buf := s.cur.buf.drop s.cur.byo, byo := 0, bio := s.cur.bio }
              resp := some plainOk } ∧
    (∀ a, memRead (s.cur.buf.drop s.cur.byo) a = memRead s.cur.buf (s.cur.byo + a)) ∧
    (s.cur.buf.drop s.cur.byo).length = s.cur.buf.length - s.cur.byo

/-- 40_cursor_and_buffer R86: after TRIM the index is the old one mod 8, every surviving bit keeps its value and its
distance from the cursor, and any reads from there on answer as they would have on the untrimmed buffer. That equal
responses include an equal VALUE where a result does not fit, which 30_encoding R70 leaves under no law, is the model's
(log entry 5, DESIGN CHOICE): both runs draw the free value at the same counter. -/
def Obligations.TrimKeepsWhatIsUnread : Prop :=
  ∀ s t : State, s.Inv → exec .trim s = .next t →
    t.cur.pos = s.cur.pos % 8 ∧
      (∀ q, q < 8 * t.cur.buf.length →
        bitAt t.cur.buf q = bitAt s.cur.buf (q + 8 * s.cur.byo)) ∧
      t.cur.bitsLeft = s.cur.bitsLeft ∧
      ∀ is : List Instr, (∀ i ∈ is, bitCount i ≠ none ∨ i = .rdue ∨ i = .rdse) →
        ∃ rs u v, runAll is t = some (rs, u) ∧ runAll is s = some (rs, v) ∧
          u.cur.pos + 8 * s.cur.byo = v.cur.pos

/-- 40_cursor_and_buffer R88 and 30_encoding R69 (the VALUE is decision D11, D15): INDEX returns `8*byo + bio` and changes
nothing; VALUE shows it whenever it is below 2^64. TRIM lowers the index by 8 times the bytes discarded; CREATE sets it
to 0. -/
def Obligations.IndexReturnsThePosition : Prop :=
  ∀ s : State, ∃ t, exec .index s = .next t ∧ t.cur = s.cur ∧ t.port = s.port ∧ t.cfg = s.cfg ∧
    (s.cur.pos < 2 ^ 64 → t = { s with resp := some (shownNat (8 * s.cur.byo + s.cur.bio.val)) }) ∧
    (2 ^ 64 ≤ s.cur.pos → ∃ v, t.resp =
      some { status := .ok, result := some (.nat (8 * s.cur.byo + s.cur.bio.val)), value := some v }) ∧
    (∀ u, exec .trim s = .next u → u.cur.pos + 8 * s.cur.byo = s.cur.pos) ∧
    ∀ p u, exec (.create p) s = .next u → u.cur.pos = 0

/-- 30_encoding R69 with 00_scope R6 (decisions D11, D15): with a finite BUF_CAP the index always fits VALUE. -/
def Obligations.IndexFitsUnderAFiniteCapacity : Prop :=
  ∀ (s : State) (cap : Nat), s.Inv → s.cfg.bufCap = some cap →
    exec .index s = .next { s with resp := some (shownNat s.cur.pos) }

/-- 40_cursor_and_buffer R89 and R90: REWIND N moves `pos` back by N when N ≤ pos, which is N steps of the bit-by-bit walk;
otherwise it ends with InvalidRewind and nothing has moved. -/
def Obligations.RewindMovesBackOrFailsUnmoved : Prop :=
  ∀ (s : State) (n : Nat),
    (n ≤ s.cur.pos →
      ∃ t, exec (.rewind n) s = .next t ∧ t.cur.buf = s.cur.buf ∧
        t.cur.byo = (s.cur.pos - n) / 8 ∧ t.cur.bio.val = (s.cur.pos - n) % 8 ∧
        t.cur = s.cur.walkBack n ∧ t = { s with cur := t.cur, resp := some plainOk }) ∧
      (s.cur.pos < n →
        exec (.rewind n) s =
          .next { s with resp := some { status := .invalidRewind, result := none, value := none } })

/-- 40_cursor_and_buffer R92, its first sentence: REWIND n undoes n successful single-bit reads, and re-reading gives the
same bits. -/
def Obligations.RewindUndoesSingleBitReads : Prop :=
  ∀ (n : Nat) (s t : State) (rs : List Response),
    runAll (List.replicate n .rdbit) s = some (rs, t) → (∀ r ∈ rs, r.status = .ok) →
    ∃ t' u, exec (.rewind n) t = .next t' ∧ t'.cur = s.cur ∧
      runAll (List.replicate n .rdbit) t' = some (rs, u)

/-- 40_cursor_and_buffer R93 (the spec's own inference): after TRIM the largest legal REWIND is below 8. -/
def Obligations.RewindCannotReachTrimmedBytes : Prop :=
  ∀ (s t u : State) (n : Nat), exec .trim s = .next t → exec (.rewind n) t = .next u →
    8 ≤ n → u.cur = t.cur ∧
      u.resp = some { status := .invalidRewind, result := none, value := none }

/-- 40_cursor_and_buffer R94 with R92, the checkpoint idiom: after any commands without CREATE and TRIM that did not end
before the checkpoint, REWIND by the difference of the two indices restores the position; without APPEND, the whole
cursor. -/
def Obligations.CheckpointAndRewindRestoreThePosition : Prop :=
  ∀ (is : List Instr) (s t : State) (rs : List Response), runAll is s = some (rs, t) →
    (∀ i ∈ is, i ≠ .trim ∧ ∀ p, i ≠ .create p) → s.cur.pos ≤ t.cur.pos →
    ∃ u, exec (.rewind (t.cur.pos - s.cur.pos)) t = .next u ∧ u.cur.pos = s.cur.pos ∧
      u.resp = some plainOk ∧ ((∀ i ∈ is, reshapes i = false) → u.cur = s.cur)

/-! Bit-extraction commands -/

/-- 41_bit_extraction R100 and R101: RDBIT takes bit `7 - bio` of `buf[byo]` and moves one bit, carrying at 8; at or past
the end it fails and changes nothing. -/
def Obligations.SingleBitReadTakesOneBit : Prop :=
  ∀ s : State,
    (∀ b, memRead s.cur.buf s.cur.byo = some b →
      exec .rdbit s = .next { s with
        cur := if s.cur.bio = 7 then { s.cur with byo := s.cur.byo + 1, bio := 0 }
          else { s.cur with bio := s.cur.bio + 1 }
        resp := some (shownNat (b.toNat / 2 ^ (7 - s.cur.bio.val) % 2)) }) ∧
      (s.cur.buf.length ≤ s.cur.byo →
        exec .rdbit s = .next { s with resp := some exhausted })

/-- 41_bit_extraction R102: a failed RDBIT leaves the position, and after an APPEND of at least one byte the same command
returns the first appended bit. -/
def Obligations.FailedBitReadSucceedsAfterAppend : Prop :=
  ∀ (s t : State) (b : Byte) (rest : List Byte), s.Inv → exec .rdbit s = .next t →
    t.resp = some exhausted → s.hasRoom (s.cur.buf.length + (b :: rest).length) = true →
    t.cur = s.cur ∧
      ∃ u v, exec (.append (b :: rest)) t = .next u ∧ exec .rdbit u = .next v ∧
        v.resp = some (shownNat (b.toNat / 2 ^ 7))

/-- 41_bit_extraction R103: RDFLAG moves and fails exactly as RDBIT does, gives the same STATUS and VALUE, and its result is
true iff the bit is 1. -/
def Obligations.FlagReadFollowsTheBitRead : Prop :=
  ∀ s : State, ∃ t u, exec .rdflag s = .next t ∧ exec .rdbit s = .next u ∧ t.cur = u.cur ∧
    (s.cur.pos < 8 * s.cur.buf.length →
      (t = { s with cur := s.cur.moveTo (s.cur.pos + 1)
                    resp := some { status := .ok, result := some (.flag true), value := some 1 } } ∧
        u.resp = some (shownNat 1)) ∨
      (t = { s with cur := s.cur.moveTo (s.cur.pos + 1)
                    resp := some { status := .ok, result := some (.flag false), value := some 0 } } ∧
        u.resp = some (shownNat 0))) ∧
    (8 * s.cur.buf.length ≤ s.cur.pos →
      t = { s with resp := some exhausted } ∧ u.resp = some exhausted)

/-- 41_bit_extraction R106 and R107: RDBITS N accumulates N bits, `accumulator*2 + bit`, below 2^N; VALUE shows the result
when it is below 2^64 (30_encoding R68, R70). That a read that runs out leaves the cursor at `8*len(buf)` is R110, an
inference the spec marks as its own; that from 2^64 on VALUE is a free draw which advances the model's counter is log
entry 5 (DESIGN CHOICE). -/
def Obligations.ReadBitsAccumulatesMsbFirst : Prop :=
  ∀ (s : State) (n : Nat),
    (s.cur.pos + n ≤ 8 * s.cur.buf.length →
      ∃ t, exec (.rdbits n) s = .next t ∧ t.cur = s.cur.moveTo (s.cur.pos + n) ∧
        assemble (bitsFrom s.cur.buf s.cur.pos n) < 2 ^ n ∧
        (assemble (bitsFrom s.cur.buf s.cur.pos n) < 2 ^ 64 →
          t = { s with cur := t.cur
                       resp := some (shownNat (assemble (bitsFrom s.cur.buf s.cur.pos n))) }) ∧
        (2 ^ 64 ≤ assemble (bitsFrom s.cur.buf s.cur.pos n) →
          ∃ v, t = { s with
            cur := t.cur, draws := s.draws + 1
            resp := some { status := .ok, value := some v
                           result := some (.nat (assemble (bitsFrom s.cur.buf s.cur.pos n))) } })) ∧
      (s.Inv → 8 * s.cur.buf.length < s.cur.pos + n →
        exec (.rdbits n) s =
          .next { s with cur := s.cur.moveTo (8 * s.cur.buf.length), resp := some exhausted })

/-- 41_bit_extraction R108: a count of 0 yields 0, consumes nothing and never fails, wherever the cursor is. -/
def Obligations.ReadOfZeroBitsNeverFails : Prop :=
  ∀ s : State, exec (.rdbits 0) s = .next { s with resp := some (shownNat 0) } ∧
    exec (.skip 0) s = .next { s with resp := some plainOk }

/-- 20_memory R57 with 41_bit_extraction R111 (inferences the spec marks as its own): the value of a successful RDBITS n is
`(B div 2^(8L - P - n)) mod 2^n`, the buffer taken as one big-endian number. -/
def Obligations.ReadBitsReturnsTheBigEndianField : Prop :=
  ∀ (s : State) (n : Nat), s.cur.pos + n ≤ 8 * s.cur.buf.length →
    ∃ t r, exec (.rdbits n) s = .next t ∧ t.resp = some r ∧
      r.result = some (.nat (fieldAt s.cur.buf s.cur.pos n)) ∧
      t.cur.buf = s.cur.buf ∧ t.cur.pos = s.cur.pos + n

/-- 41_bit_extraction R110 and 60_exceptions R153 (inferences the spec marks as its own): a read of a fixed number of bits
succeeds exactly when they are there, and otherwise ends at the end of the buffer with BufferExhausted. -/
def Obligations.FixedLengthReadsSucceedExactlyWhenTheBitsAreThere : Prop :=
  ∀ (i : Instr) (n : Nat) (s : State), bitCount i = some n → s.Inv →
    (s.cur.pos + n ≤ 8 * s.cur.buf.length →
      ∃ t r, exec i s = .next t ∧ t.resp = some r ∧ r.status = .ok ∧ t.cur.buf = s.cur.buf ∧
        t.cur.pos = s.cur.pos + n) ∧
      (8 * s.cur.buf.length < s.cur.pos + n →
        exec i s =
          .next { s with cur := s.cur.moveTo (8 * s.cur.buf.length), resp := some exhausted })

/-- 20_memory R56 (the spec's own inference): the wide read is that many single-bit reads: the same bits in the same order,
and the cursor ends at the same place. -/
def Obligations.WideReadIsThatManySingleBitReads : Prop :=
  ∀ (s : State) (n : Nat), s.cur.pos + n ≤ 8 * s.cur.buf.length →
    ∃ t u r, runAll (List.replicate n .rdbit) s =
        some ((bitsFrom s.cur.buf s.cur.pos n).map shownNat, t) ∧
      exec (.rdbits n) s = .next u ∧ u.resp = some r ∧ u.cur = t.cur ∧
      r.result = some (.nat (assemble (bitsFrom s.cur.buf s.cur.pos n)))

/-- 20_memory R56 (the spec's own inference): two adjacent fields are the high and the low part of the one wide field. -/
def Obligations.AdjacentReadsConcatenate : Prop :=
  ∀ (s : State) (a b : Nat), s.cur.pos + (a + b) ≤ 8 * s.cur.buf.length →
    ∃ t u v x y, exec (.rdbits a) s = .next t ∧ exec (.rdbits b) t = .next u ∧
      exec (.rdbits (a + b)) s = .next v ∧ u.cur = v.cur ∧
      t.resp.bind Response.result = some (.nat x) ∧ u.resp.bind Response.result = some (.nat y) ∧
      v.resp.bind Response.result = some (.nat (x * 2 ^ b + y))

/-- 41_bit_extraction R112 to R115 (R112's absence of another byte read is the spec's own decision D21): each unsigned
read is RDBITS of its width, in every state; its number is below 2^w and VALUE shows it; from a byte-aligned position
RDU16 takes its high part from the lower byte; 64 bits from a 16-bit buffer fail at bit index 16. -/
def Obligations.UnsignedReadsAreReadBitsOfTheirWidth : Prop :=
  (∀ (s : State), ∀ iw ∈ [(Instr.rdu8, 8), (.rdu16, 16), (.rdu32, 32), (.rdu64, 64)],
    exec iw.1 s = exec (.rdbits iw.2) s ∧
      (s.cur.pos + iw.2 ≤ 8 * s.cur.buf.length →
        exec iw.1 s = .next { s with
          cur := s.cur.moveTo (s.cur.pos + iw.2)
          resp := some (shownNat (assemble (bitsFrom s.cur.buf s.cur.pos iw.2))) } ∧
        assemble (bitsFrom s.cur.buf s.cur.pos iw.2) < 2 ^ iw.2)) ∧
    (∀ (s : State) (a b : Byte), s.cur.bio = 0 → memRead s.cur.buf s.cur.byo = some a →
      memRead s.cur.buf (s.cur.byo + 1) = some b →
      ∃ t, exec .rdu16 s = .next t ∧ t.resp = some (shownNat (a.toNat * 256 + b.toNat))) ∧
    ∀ s : State, s.cur.buf.length = 2 → s.cur.pos = 0 →
      ∃ t, exec .rdu64 s = .next t ∧ t.resp = some exhausted ∧ t.cur.pos = 16

/-- 41_bit_extraction R116 to R120: each signed read is the two's-complement reading of the bits the unsigned read of the
same width returns; the result is in its range, VALUE is the w bits sign-extended to 64, and the worked example of R118
holds. -/
def Obligations.SignedReadsReinterpretTheBits : Prop :=
  (∀ (s : State), ∀ iw ∈ [(Instr.rdi8, 8), (.rdi16, 16), (.rdi32, 32), (.rdi64, 64)],
    s.cur.pos + iw.2 ≤ 8 * s.cur.buf.length →
    ∃ u z, u = assemble (bitsFrom s.cur.buf s.cur.pos iw.2) ∧
      z = (if u < 2 ^ (iw.2 - 1) then (u : Int) else (u : Int) - 2 ^ iw.2) ∧
      -(2 ^ (iw.2 - 1)) ≤ z ∧ z < 2 ^ (iw.2 - 1) ∧
      exec iw.1 s = .next { s with
        cur := s.cur.moveTo (s.cur.pos + iw.2)
        resp := some { status := .ok, result := some (.int z)
                       value := some ((BitVec.ofNat iw.2 u).signExtend 64) } }) ∧
    (∀ (s : State), ∀ iw ∈ [(Instr.rdi8, 8), (.rdi16, 16), (.rdi32, 32), (.rdi64, 64)], s.Inv →
      8 * s.cur.buf.length < s.cur.pos + iw.2 → exec iw.1 s = exec (.rdbits iw.2) s) ∧
    ∀ s : State, s.cur = { buf := [0xfc, 0xda, 0x5f, 0xaf], byo := 0, bio := 0 } →
      ∃ t r, exec .rdi32 s = .next t ∧ t.resp = some r ∧ r.result = some (.int (-52797521))

/-- 41_bit_extraction R121: SKIP moves as RDBITS does and answers no value; two skips leave the cursor of one skip of the
sum, whether or not the buffer suffices. -/
def Obligations.SkipMovesAsTheReadAndComposes : Prop :=
  (∀ (s : State) (n : Nat),
    (s.cur.pos + n ≤ 8 * s.cur.buf.length →
      exec (.skip n) s =
        .next { s with cur := s.cur.moveTo (s.cur.pos + n), resp := some plainOk }) ∧
      (s.Inv → 8 * s.cur.buf.length < s.cur.pos + n →
        exec (.skip n) s =
          .next { s with cur := s.cur.moveTo (8 * s.cur.buf.length), resp := some exhausted })) ∧
    ∀ (s : State) (a b : Nat), s.Inv →
      ∃ t u v, exec (.skip a) s = .next t ∧ exec (.skip b) t = .next u ∧
        exec (.skip (a + b)) s = .next v ∧ u.cur = v.cur

/-- 41_bit_extraction R123: RDBITS k and three RDBIT advance by k + 3 when that many bits remain, and by the bits that
remain when there are k to k + 2; a successful RDBITS k advances by k, a successful RDBIT by 1. -/
def Obligations.AdvanceLaw : Prop :=
  (∀ (s : State) (k : Nat), s.cur.pos + k ≤ 8 * s.cur.buf.length →
    ∃ rs t, runAll [.rdbits k, .rdbit, .rdbit, .rdbit] s = some (rs, t) ∧
      t.cur.pos = min (s.cur.pos + (k + 3)) (8 * s.cur.buf.length)) ∧
    ∀ (s t : State) (r : Response) (k : Nat), t.resp = some r → r.status = .ok →
      (exec (.rdbits k) s = .next t → t.cur.pos = s.cur.pos + k) ∧
        (exec .rdbit s = .next t → t.cur.pos = s.cur.pos + 1)

/-- 41_bit_extraction R124: reading a created sequence 8 bits at a time returns its bytes in order, with RDU8 or with
RDBITS 8, and ends at the end of the buffer. -/
def Obligations.PackingLaw : Prop :=
  ∀ (s : State) (p : List Byte), s.hasRoom p.length = true →
    ∀ i ∈ [Instr.rdu8, .rdbits 8],
      ∃ t, runAll (.create p :: List.replicate p.length i) s =
          some (plainOk :: p.map fun b => shownNat b.toNat, t) ∧
        t.cur.buf = p ∧ t.cur.pos = 8 * p.length

/-- 70_reset_and_hazards R177 (the spec's own inference): a retry after APPEND is no resumption: whichever read had run out,
the next read starts at the old end of the buffer, with the appended bytes. -/
def Obligations.RetryAfterAppendReadsTheAppendedBytes : Prop :=
  ∀ (i : Instr) (s t u : State) (p : List Byte) (n : Nat), s.Inv → exec i s = .next t →
    t.resp = some exhausted → exec (.append p) t = .next u → n ≤ 8 * p.length →
    ∃ v r, exec (.rdbits n) u = .next v ∧ v.resp = some r ∧ r.status = .ok ∧
      r.result = some (.nat (assemble (bitsFrom p 0 n))) ∧
      v.cur.pos = 8 * s.cur.buf.length + n

/-! Exp-Golomb commands -/

/-- 42_exp_golomb R130 and R131 with R134: RDUE counts the zeros before the first 1, reads as many suffix bits, and returns
`2^lz - 1 + v`, for every number of leading zeros that fits the buffer. VALUE shows it when it is below 2^64 (30_encoding
R68, R70). That from 2^64 on VALUE is a free draw which advances the model's counter is log entry 5 (DESIGN CHOICE). -/
def Obligations.UnsignedGolombDecodesTheCodeWord : Prop :=
  ∀ (s : State) (lz : Nat), (∀ j < lz, bitAt s.cur.buf (s.cur.pos + j) = 0) →
    bitAt s.cur.buf (s.cur.pos + lz) = 1 → s.cur.pos + 2 * lz + 1 ≤ 8 * s.cur.buf.length →
    ∃ t v, v = 2 ^ lz - 1 + assemble (bitsFrom s.cur.buf (s.cur.pos + lz + 1) lz) ∧
      exec .rdue s = .next t ∧ t.cur = s.cur.moveTo (s.cur.pos + 2 * lz + 1) ∧
      (v < 2 ^ 64 → t = { s with cur := t.cur, resp := some (shownNat v) }) ∧
      (2 ^ 64 ≤ v → ∃ x, t = { s with
        cur := t.cur, draws := s.draws + 1
        resp := some { status := .ok, result := some (.nat v), value := some x } })

/-- 42_exp_golomb R133: with no 1 between the cursor and the end, RDUE consumes every remaining bit and fails. -/
def Obligations.AllZeroTailExhaustsTheScan : Prop :=
  ∀ s : State, s.Inv →
    (∀ p, s.cur.pos ≤ p → p < 8 * s.cur.buf.length → bitAt s.cur.buf p = 0) →
    exec .rdue s =
      .next { s with cur := s.cur.moveTo (8 * s.cur.buf.length), resp := some exhausted }

/-- 42_exp_golomb R132 and R135 (inferences the spec marks as its own): a terminating 1 whose suffix runs past the end fails
too, at the end of the buffer. -/
def Obligations.TruncatedSuffixExhaustsTheRead : Prop :=
  ∀ (s : State) (lz : Nat), (∀ j < lz, bitAt s.cur.buf (s.cur.pos + j) = 0) →
    bitAt s.cur.buf (s.cur.pos + lz) = 1 → s.cur.pos + lz < 8 * s.cur.buf.length →
    8 * s.cur.buf.length < s.cur.pos + 2 * lz + 1 →
    exec .rdue s =
      .next { s with cur := s.cur.moveTo (8 * s.cur.buf.length), resp := some exhausted }

/-- 42_exp_golomb R142 (the spec's own inference): the code word of `u` is the numeral of `u + 1` preceded by
`floor(log2(u + 1))` zeros; RDUE over it returns `u`, for every natural number `u`. -/
def Obligations.EveryNumberHasItsCodeWord : Prop :=
  ∀ (s : State) (u : Nat),
    s.cur.pos + (2 * Nat.log2 (u + 1) + 1) ≤ 8 * s.cur.buf.length →
    assemble (bitsFrom s.cur.buf s.cur.pos (2 * Nat.log2 (u + 1) + 1)) = u + 1 →
    ∃ t r, exec .rdue s = .next t ∧ t.resp = some r ∧ r.status = .ok ∧
      r.result = some (.nat u) ∧ t.cur.pos = s.cur.pos + (2 * Nat.log2 (u + 1) + 1)

/-- 42_exp_golomb R136 with R138 and R139 (R138, R139 are the spec's own inferences): RDSE moves and fails exactly as RDUE
does, and its result is the zig-zag of RDUE's; VALUE shows it when the code value is at most 2^64 - 2. The clauses on the
model's counter, which a free VALUE advances, rest on log entry 5 (DESIGN CHOICE). -/
def Obligations.SignedGolombFollowsTheUnsigned : Prop :=
  ∀ s : State, ∃ t u, exec .rdse s = .next t ∧ exec .rdue s = .next u ∧ t.cur = u.cur ∧
    ((∃ e, u.resp = some { status := e, result := none, value := none } ∧ e ≠ .ok ∧
        t.resp = u.resp) ∨
      ∃ v z x r, u.resp = some r ∧ r.status = .ok ∧ r.result = some (.nat v) ∧
        t.resp = some { status := .ok, result := some (.int z), value := some x } ∧
        (v % 2 = 1 → 2 * z = v + 1) ∧ (v % 2 = 0 → 2 * z = -(v : Int)) ∧
        (v ≤ 2 ^ 64 - 2 → x.toInt = z ∧ t.draws = s.draws) ∧
        (2 ^ 64 - 1 ≤ v → t.draws = s.draws + 1))

/-- 42_exp_golomb R136 over a whole code word, with R130 and R139 (R139 is the spec's own inference): RDSE completes
wherever RDUE does. That the model's counter stays where VALUE is shown is log entry 5 (DESIGN CHOICE). -/
def Obligations.SignedGolombDecodesTheCodeWord : Prop :=
  ∀ (s : State) (lz : Nat), (∀ j < lz, bitAt s.cur.buf (s.cur.pos + j) = 0) →
    bitAt s.cur.buf (s.cur.pos + lz) = 1 → s.cur.pos + 2 * lz + 1 ≤ 8 * s.cur.buf.length →
    ∃ t v z x, v = 2 ^ lz - 1 + assemble (bitsFrom s.cur.buf (s.cur.pos + lz + 1) lz) ∧
      z = (if v % 2 = 1 then (((v + 1) / 2 : Nat) : Int) else -((v / 2 : Nat) : Int)) ∧
      exec .rdse s = .next t ∧ t.cur = s.cur.moveTo (s.cur.pos + 2 * lz + 1) ∧
      t.port = s.port ∧ t.cfg = s.cfg ∧
      t.resp = some { status := .ok, result := some (.int z), value := some x } ∧
      (v ≤ 2 ^ 64 - 2 → x = BitVec.ofInt 64 z ∧ t.draws = s.draws)

/-- 42_exp_golomb R137: the mapping's first values, and its inverse: a bijection from the naturals onto the integers; both
halvings are exact. -/
def Obligations.ZigzagIsABijection : Prop :=
  (List.range 7).map zigzag = [0, 1, -1, 2, -2, 3, -3] ∧
    Function.Bijective zigzag ∧
    (∀ z : Int, (0 < z → zigzag (2 * z - 1).toNat = z) ∧ (z ≤ 0 → zigzag (-2 * z).toNat = z)) ∧
    ∀ v : Nat, (v % 2 = 1 → 2 * zigzag v = v + 1) ∧ (v % 2 = 0 → 2 * zigzag v = -(v : Int))

/-! Encoding -/

/-- 30_encoding R75 (the spec's own inference from its decisions D3 to D6): decode after encode is the identity, every
operand and payload at every value the encoding admits. -/
def Obligations.DecodeAfterEncodeIsTheIdentity : Prop :=
  ∀ i : Instr, i.wf = true → decode (encode i) = .ok i

/-- 30_encoding R75 (the spec's own inference): encode after decode is the identity on whatever decodes, and only
well-formed commands decode. -/
def Obligations.EncodeAfterDecodeIsTheIdentity : Prop :=
  ∀ (c : Command) (i : Instr), decode c = .ok i → i.wf = true ∧ encode i = c

/-- 30_encoding R63, R65 and R66 (decisions D4 to D7): a word and payload are a command exactly when a row of the opcode map
selects the word and the payload is as long as the row's format says; the command is the row's; the word is reserved
exactly when no row selects it. -/
def Obligations.WordsDecodeAsTheOpcodeMapSays : Prop :=
  ∀ c : Command,
    ((∃ i, decode c = .ok i) ↔
      ∃ r ∈ opcodeRows, r.selects c.word = true ∧
        c.payload.length = if r.format = .p then operandField c.word else 0) ∧
      (∀ i, decode c = .ok i → ∀ r ∈ opcodeRows, r.selects c.word = true → i.mnemonic = r.mnemonic) ∧
      ((∃ op n, decode c = .error (.reservedOpcode op) ∨ decode c = .error (.operandNotZero op n)) ↔
        ∀ r ∈ opcodeRows, r.selects c.word = false)

/-- 30_encoding R63 (decision D4): for opcodes 0x20 to 0x2B the low two opcode bits give the width,
`width = 8 * 2^OP[1:0]`, and opcode bit 3 says signed; the signed command reads the bits of the unsigned one. -/
def Obligations.OpcodeGivesWidthAndSign : Prop :=
  ∀ i ∈ [Instr.rdu8, .rdu16, .rdu32, .rdu64, .rdi8, .rdi16, .rdi32, .rdi64],
    bitCount i = some (8 * 2 ^ (opcode i % 4)) ∧
      (opcode i / 8 % 2 = 1 ↔ i ∈ [Instr.rdi8, .rdi16, .rdi32, .rdi64])

/-- Words of each family written out from the table of 95_test_vectors T-ENC and T-DEC (decisions D3 to D5). -/
def Obligations.SpecWordsDecode : Prop :=
  decode ⟨0x01000001, [0xA7]⟩ = .ok (.create [0xA7]) ∧
    decode ⟨0x02000002, [0x34, 0x56]⟩ = .ok (.append [0x34, 0x56]) ∧
    decode ⟨0x0500000A, []⟩ = .ok (.rewind 10) ∧
    decode ⟨0x12FFFFFF, []⟩ = .ok (.rdbits 16777215) ∧
    decode ⟨0x13000004, []⟩ = .ok (.skip 4) ∧
    decode ⟨0x21000000, []⟩ = .ok .rdu16 ∧
    decode ⟨0x2A000000, []⟩ = .ok .rdi32 ∧
    decode ⟨0x31000000, []⟩ = .ok .rdse ∧
    decode ⟨0x03000001, []⟩ = .error (.operandNotZero 3 1) ∧
    decode ⟨0x00000000, []⟩ = .error (.reservedOpcode 0)
end

