-- ==== Sys2Proof/Laws/State.lean ====
section
/-! SUPPORT. One lemma per field per update of the state and of the cursor, so that no later proof unfolds a record
update. -/

namespace Sys2Proof.Machine

section Cursor
variable (c : BitCursor) (p : Nat) (bytes : List Byte)

@[simp] theorem BitCursor.moveTo_buf : (c.moveTo p).buf = c.buf := rfl
@[simp] theorem BitCursor.moveTo_byo : (c.moveTo p).byo = p / 8 := rfl
@[simp] theorem BitCursor.moveTo_bio : (c.moveTo p).bio.val = p % 8 := rfl
@[simp] theorem BitCursor.over_buf : (BitCursor.over bytes).buf = bytes := rfl
@[simp] theorem BitCursor.over_byo : (BitCursor.over bytes).byo = 0 := rfl
@[simp] theorem BitCursor.over_bio : (BitCursor.over bytes).bio = 0 := rfl
@[simp] theorem BitCursor.extend_buf : (c.extend bytes).buf = c.buf ++ bytes := rfl
@[simp] theorem BitCursor.extend_byo : (c.extend bytes).byo = c.byo := rfl
@[simp] theorem BitCursor.extend_bio : (c.extend bytes).bio = c.bio := rfl
@[simp] theorem BitCursor.trimmed_buf : c.trimmed.buf = c.buf.drop c.byo := rfl
@[simp] theorem BitCursor.trimmed_byo : c.trimmed.byo = 0 := rfl
@[simp] theorem BitCursor.trimmed_bio : c.trimmed.bio = c.bio := rfl

end Cursor

section Answers
variable (s : State) (e : ErrorKind) (r : Result) (v : Value)

@[simp] theorem State.deliver_cur : (State.deliver e s).cur = s.cur := rfl
@[simp] theorem State.deliver_port : (State.deliver e s).port = s.port := rfl
@[simp] theorem State.deliver_resp :
    (State.deliver e s).resp = some { status := e.status, result := none, value := none } := rfl
@[simp] theorem State.deliver_cfg : (State.deliver e s).cfg = s.cfg := rfl
@[simp] theorem State.deliver_draws : (State.deliver e s).draws = s.draws := rfl
@[simp] theorem State.answerNone_cur : s.answerNone.cur = s.cur := rfl
@[simp] theorem State.answerNone_port : s.answerNone.port = s.port := rfl
@[simp] theorem State.answerNone_resp :
    s.answerNone.resp = some { status := .ok, result := none, value := none } := rfl
@[simp] theorem State.answerNone_cfg : s.answerNone.cfg = s.cfg := rfl
@[simp] theorem State.answerNone_draws : s.answerNone.draws = s.draws := rfl
@[simp] theorem State.answerExact_cur : (s.answerExact r v).cur = s.cur := rfl
@[simp] theorem State.answerExact_port : (s.answerExact r v).port = s.port := rfl
@[simp] theorem State.answerExact_resp :
    (s.answerExact r v).resp = some { status := .ok, result := some r, value := some v } := rfl
@[simp] theorem State.answerExact_cfg : (s.answerExact r v).cfg = s.cfg := rfl
@[simp] theorem State.answerExact_draws : (s.answerExact r v).draws = s.draws := rfl
@[simp] theorem State.answerFree_cur : (s.answerFree r).cur = s.cur := rfl
@[simp] theorem State.answerFree_port : (s.answerFree r).port = s.port := rfl
@[simp] theorem State.answerFree_resp :
    (s.answerFree r).resp =
      some { status := .ok, result := some r, value := some (Config.freeValue s.draws) } := rfl
@[simp] theorem State.answerFree_cfg : (s.answerFree r).cfg = s.cfg := rfl
@[simp] theorem State.answerFree_draws : (s.answerFree r).draws = s.draws + 1 := rfl
@[simp] theorem State.hold_cur : s.hold.cur = s.cur := rfl
@[simp] theorem State.hold_port : s.hold.port = s.port := rfl
@[simp] theorem State.hold_resp : s.hold.resp = none := rfl
@[simp] theorem State.hold_cfg : s.hold.cfg = s.cfg := rfl
@[simp] theorem State.hold_draws : s.hold.draws = s.draws := rfl
@[simp] theorem State.hardReset_cur : s.hardReset.cur = BitCursor.reset := rfl
@[simp] theorem State.hardReset_port : s.hardReset.port = s.port := rfl
@[simp] theorem State.hardReset_resp : s.hardReset.resp = none := rfl
@[simp] theorem State.hardReset_cfg : s.hardReset.cfg = s.cfg := rfl
@[simp] theorem State.hardReset_draws : s.hardReset.draws = s.draws := rfl

end Answers

/-- What a natural-number answer can be: shown exactly, or a free draw when it does not fit. -/
theorem State.answerNat_cases (n : Nat) (s : State) :
    (n < 2 ^ 64 ∧ s.answerNat n = s.answerExact (.nat n) (BitVec.ofNat 64 n)) ∨
      (2 ^ 64 ≤ n ∧ s.answerNat n = s.answerFree (.nat n)) := by
  unfold State.answerNat
  split
  · exact .inl ⟨‹_›, rfl⟩
  · exact .inr ⟨Nat.le_of_not_lt ‹_›, rfl⟩

/-- What a signed Exp-Golomb answer can be. -/
theorem State.answerSigned_cases (v : Nat) (s : State) :
    (v < 2 ^ 64 - 1 ∧
        s.answerSigned v = s.answerExact (.int (zigzag v)) (BitVec.ofInt 64 (zigzag v))) ∨
      (2 ^ 64 - 1 ≤ v ∧ s.answerSigned v = s.answerFree (.int (zigzag v))) := by
  unfold State.answerSigned
  split
  · exact .inl ⟨‹_›, rfl⟩
  · exact .inr ⟨Nat.le_of_not_lt ‹_›, rfl⟩

theorem State.answerNat_of_lt {n : Nat} (h : n < 2 ^ 64) (s : State) :
    s.answerNat n = s.answerExact (.nat n) (BitVec.ofNat 64 n) := if_pos h

/-- An answer touches the response and the counter of free values, nothing else. -/
theorem State.answerNat_frame (n : Nat) (s : State) :
    (s.answerNat n).cur = s.cur ∧ (s.answerNat n).port = s.port ∧ (s.answerNat n).cfg = s.cfg := by
  obtain ⟨-, h⟩ | ⟨-, h⟩ := State.answerNat_cases n s <;> rw [h] <;> exact ⟨rfl, rfl, rfl⟩

theorem State.answerSigned_frame (v : Nat) (s : State) :
    (s.answerSigned v).cur = s.cur ∧ (s.answerSigned v).port = s.port ∧
      (s.answerSigned v).cfg = s.cfg := by
  obtain ⟨-, h⟩ | ⟨-, h⟩ := State.answerSigned_cases v s <;> rw [h] <;> exact ⟨rfl, rfl, rfl⟩

/-- What the end of a command can be: the value answered over the cursor reached, or the error delivered over it. -/
theorem State.conclude_cases {α : Type} {s t : State} {r : Attempt α} {answer : α → State → State}
    (h : s.conclude r answer = .next t) :
    (∃ a c, r = .done a c ∧ t = answer a { s with cur := c }) ∨
      (∃ e c, r = .raised e c ∧ t = State.deliver e { s with cur := c }) := by
  unfold State.conclude at h
  cases r with
  | done a c => cases h; exact .inl ⟨a, c, rfl, rfl⟩
  | raised e c => cases h; exact .inr ⟨e, c, rfl, rfl⟩

end Sys2Proof.Machine
end

