-- ==== Sys2Proof/Laws/Cursor.lean ====
section
/-! SUPPORT. What the cursor's operations do, one lemma per operation: the single-bit read, the multi-bit read, the
leading-zero scan, the Exp-Golomb read and the backward move. -/

namespace Sys2Proof.Machine

/-- A cursor is its buffer and its bit index (10_state R35: `byo = pos div 8`, `bio = pos mod 8`). -/
theorem BitCursor.moveTo_pos (c : BitCursor) : c.moveTo c.pos = c := by
  obtain ⟨buf, byo, bio⟩ := c
  have := bio.isLt
  simp only [BitCursor.moveTo, BitCursor.pos, BitCursor.mk.injEq, true_and]
  refine ⟨by omega, Fin.ext ?_⟩
  simp only
  omega

@[simp] theorem BitCursor.pos_moveTo (c : BitCursor) (p : Nat) : (c.moveTo p).pos = p := by
  simp only [BitCursor.pos, BitCursor.moveTo_byo, BitCursor.moveTo_bio]
  omega

@[simp] theorem BitCursor.moveTo_moveTo (c : BitCursor) (p q : Nat) :
    (c.moveTo p).moveTo q = c.moveTo q := rfl

/-- Two cursors with the same buffer and the same bit index are equal. -/
theorem BitCursor.ext_pos {c d : BitCursor} (hb : c.buf = d.buf) (hp : c.pos = d.pos) : c = d := by
  rw [← c.moveTo_pos, ← d.moveTo_pos, hp]
  simp only [BitCursor.moveTo, hb]

theorem BitCursor.pos_div (c : BitCursor) : c.pos / 8 = c.byo := by
  have := c.bio.isLt
  simp only [BitCursor.pos]
  omega

theorem BitCursor.pos_mod (c : BitCursor) : c.pos % 8 = c.bio.val := by
  have := c.bio.isLt
  simp only [BitCursor.pos]
  omega

/-- The cursor is short of the end exactly when `byo` is (10_state R26). -/
theorem BitCursor.pos_lt_iff (c : BitCursor) :
    c.pos < 8 * c.buf.length ↔ c.byo < c.buf.length := by
  have := c.bio.isLt
  simp only [BitCursor.pos]
  omega

/-- One bit forward takes `pos` to `pos + 1`, over the same buffer (41_bit_extraction R104). -/
theorem BitCursor.advance_eq (c : BitCursor) : c.advance = c.moveTo (c.pos + 1) := by
  obtain ⟨buf, byo, bio⟩ := c
  have := bio.isLt
  by_cases h : bio.val + 1 < 8
  · simp only [BitCursor.advance, dif_pos h, BitCursor.moveTo, BitCursor.pos, BitCursor.mk.injEq,
      true_and]
    exact ⟨by omega, Fin.ext (by simp only; omega)⟩
  · simp only [BitCursor.advance, dif_neg h, BitCursor.moveTo, BitCursor.pos, BitCursor.mk.injEq,
      true_and]
    exact ⟨by omega, Fin.ext (by simp only [Fin.val_zero]; omega)⟩

theorem bitAt_lt_two (buf : List Byte) (p : Nat) : bitAt buf p < 2 := by
  unfold bitAt
  split
  · decide
  · exact Nat.mod_lt _ (by decide)

/-- ReadBit() short of the end returns the bit at the cursor and moves one bit forward. -/
theorem readBit_of_lt {c : BitCursor} (h : c.pos < 8 * c.buf.length) :
    readBit c = .done (bitAt c.buf c.pos) (c.moveTo (c.pos + 1)) := by
  have hlt := c.pos_lt_iff.mp h
  simp only [readBit, bitAt, memRead, BitCursor.pos_div, BitCursor.pos_mod,
    List.getElem?_eq_getElem hlt, c.advance_eq]

/-- ReadBit() at the end raises BufferExhausted and changes nothing. -/
theorem readBit_of_ge {c : BitCursor} (h : 8 * c.buf.length ≤ c.pos) :
    readBit c = .raised .bufferExhausted c := by
  have hge : c.buf.length ≤ c.byo := Nat.le_of_not_lt fun hlt =>
    absurd (c.pos_lt_iff.mpr hlt) (Nat.not_lt.mpr h)
  simp only [readBit, memRead, List.getElem?_eq_none hge]

/-- Everything ReadBit() can do. -/
theorem readBit_cases (c : BitCursor) :
    (c.pos < 8 * c.buf.length ∧ readBit c = .done (bitAt c.buf c.pos) (c.moveTo (c.pos + 1))) ∨
      (8 * c.buf.length ≤ c.pos ∧ readBit c = .raised .bufferExhausted c) :=
  (Nat.lt_or_ge c.pos (8 * c.buf.length)).imp (fun h => ⟨h, readBit_of_lt h⟩)
    (fun h => ⟨h, readBit_of_ge h⟩)

theorem bitsFrom_succ (buf : List Byte) (p n : Nat) :
    bitsFrom buf p (n + 1) = bitAt buf p :: bitsFrom buf (p + 1) n := by
  simp only [bitsFrom, List.range_succ_eq_map, List.map_cons, List.map_map, Nat.add_zero,
    List.cons.injEq, true_and]
  refine List.map_congr_left fun j _ => ?_
  simp only [Function.comp, Nat.succ_eq_add_one]
  congr 1
  omega

/-- The accumulator loop where the buffer suffices: the bits in read order, `n` bits forward. -/
theorem readBitsFrom_of_le (n acc : Nat) (c : BitCursor) (h : c.pos + n ≤ 8 * c.buf.length) :
    readBitsFrom n acc c =
      .done ((bitsFrom c.buf c.pos n).foldl (fun a b => a * 2 + b) acc) (c.moveTo (c.pos + n)) := by
  induction n generalizing acc c with
  | zero => simp [readBitsFrom, bitsFrom, c.moveTo_pos]
  | succ n ih =>
    have hlt : c.pos < 8 * c.buf.length := by omega
    rw [readBitsFrom, readBit_of_lt hlt, Attempt.andThen]
    rw [ih _ _ (by rw [BitCursor.pos_moveTo, BitCursor.moveTo_buf]; omega)]
    rw [bitsFrom_succ, List.foldl_cons, BitCursor.pos_moveTo, BitCursor.moveTo_buf,
      BitCursor.moveTo_moveTo, Nat.add_right_comm c.pos 1 n, Nat.add_assoc c.pos n 1]

/-- The accumulator loop where the buffer does not suffice: it stops at the end of the buffer (41_bit_extraction R110). -/
theorem readBitsFrom_of_gt (n acc : Nat) (c : BitCursor) (hi : c.Inv)
    (h : 8 * c.buf.length < c.pos + n) :
    readBitsFrom n acc c = .raised .bufferExhausted (c.moveTo (8 * c.buf.length)) := by
  induction n generalizing acc c with
  | zero => exact absurd h (Nat.not_lt.mpr hi)
  | succ n ih =>
    rcases Nat.lt_or_ge c.pos (8 * c.buf.length) with hlt | hge
    · rw [readBitsFrom, readBit_of_lt hlt, Attempt.andThen]
      rw [ih _ _ (by rw [BitCursor.Inv, BitCursor.pos_moveTo, BitCursor.moveTo_buf]; omega)
        (by rw [BitCursor.pos_moveTo, BitCursor.moveTo_buf]; omega)]
      rfl
    · have heq : 8 * c.buf.length = c.pos := Nat.le_antisymm hge hi
      rw [readBitsFrom, readBit_of_ge hge, Attempt.andThen, heq, c.moveTo_pos]

/-- ReadBits(n) where the buffer suffices. -/
theorem readBits_of_le {n : Nat} {c : BitCursor} (h : c.pos + n ≤ 8 * c.buf.length) :
    readBits n c = .done (assemble (bitsFrom c.buf c.pos n)) (c.moveTo (c.pos + n)) :=
  readBitsFrom_of_le n 0 c h

/-- ReadBits(n) where the buffer does not suffice. -/
theorem readBits_of_gt {n : Nat} {c : BitCursor} (hi : c.Inv) (h : 8 * c.buf.length < c.pos + n) :
    readBits n c = .raised .bufferExhausted (c.moveTo (8 * c.buf.length)) :=
  readBitsFrom_of_gt n 0 c hi h

/-- Everything ReadBits(n) can do from a state that keeps the invariant. -/
theorem readBits_cases (n : Nat) {c : BitCursor} (hi : c.Inv) :
    (c.pos + n ≤ 8 * c.buf.length ∧
        readBits n c = .done (assemble (bitsFrom c.buf c.pos n)) (c.moveTo (c.pos + n))) ∨
      (8 * c.buf.length < c.pos + n ∧
        readBits n c = .raised .bufferExhausted (c.moveTo (8 * c.buf.length))) :=
  (Nat.lt_or_ge (8 * c.buf.length) (c.pos + n)).symm.imp (fun h => ⟨h, readBits_of_le h⟩)
    (fun h => ⟨h, readBits_of_gt hi h⟩)

/-- The scan where a 1 stands `z` bits ahead after zeros only. -/
theorem scanZeros_of_one (z k lz : Nat) (c : BitCursor) (hk : z < k)
    (hz : ∀ j < z, bitAt c.buf (c.pos + j) = 0) (h1 : bitAt c.buf (c.pos + z) = 1)
    (hlen : c.pos + z < 8 * c.buf.length) :
    scanZeros k lz c = .done (lz + z) (c.moveTo (c.pos + z + 1)) := by
  induction z generalizing k lz c with
  | zero =>
    obtain ⟨k, rfl⟩ : ∃ m, k = m + 1 := ⟨k - 1, by omega⟩
    rw [Nat.add_zero] at h1
    rw [scanZeros, readBit_of_lt (by omega), Attempt.andThen, if_pos h1]
    rfl
  | succ z ih =>
    obtain ⟨k, rfl⟩ : ∃ m, k = m + 1 := ⟨k - 1, by omega⟩
    have h0 : ¬ bitAt c.buf c.pos = 1 := by
      have := hz 0 (by omega)
      rw [Nat.add_zero] at this
      omega
    rw [scanZeros, readBit_of_lt (by omega), Attempt.andThen, if_neg h0]
    rw [ih k (lz + 1) _ (by omega)]
    · rw [BitCursor.pos_moveTo, BitCursor.moveTo_moveTo, Nat.add_right_comm lz 1 z,
        Nat.add_right_comm c.pos 1 z, Nat.add_assoc lz z 1, Nat.add_assoc c.pos z 1]
    · intro j hj
      rw [BitCursor.pos_moveTo, BitCursor.moveTo_buf, Nat.add_assoc, Nat.add_comm 1 j]
      exact hz (j + 1) (by omega)
    · rw [BitCursor.pos_moveTo, BitCursor.moveTo_buf, Nat.add_assoc, Nat.add_comm 1 z]
      exact h1
    · rw [BitCursor.pos_moveTo, BitCursor.moveTo_buf]
      omega

/-- The scan where no 1 is left: it stops at the end of the buffer, whatever bound above the bits left it is given
(42_exp_golomb R133). -/
theorem scanZeros_of_none (k lz : Nat) (c : BitCursor) (hi : c.Inv) (hk : c.bitsLeft < k)
    (hz : ∀ p, c.pos ≤ p → p < 8 * c.buf.length → bitAt c.buf p = 0) :
    scanZeros k lz c = .raised .bufferExhausted (c.moveTo (8 * c.buf.length)) := by
  induction k generalizing lz c with
  | zero => omega
  | succ k ih =>
    rcases Nat.lt_or_ge c.pos (8 * c.buf.length) with hlt | hge
    · have h0 : ¬ bitAt c.buf c.pos = 1 := by rw [hz _ (Nat.le_refl _) hlt]; decide
      rw [scanZeros, readBit_of_lt hlt, Attempt.andThen, if_neg h0]
      rw [ih]
      · rfl
      · rw [BitCursor.Inv, BitCursor.pos_moveTo, BitCursor.moveTo_buf]; omega
      · simp only [BitCursor.bitsLeft, BitCursor.pos_moveTo, BitCursor.moveTo_buf] at *; omega
      · intro p hp hp'
        rw [BitCursor.pos_moveTo] at hp
        exact hz p (by omega) hp'
    · have heq : 8 * c.buf.length = c.pos := Nat.le_antisymm hge hi
      rw [scanZeros, readBit_of_ge hge, Attempt.andThen, heq, c.moveTo_pos]

/-- The bound of the scan is no iteration cap: every bound above the bits left gives the same answer
(42_exp_golomb R134). -/
theorem scanZeros_fuel (k m lz : Nat) (c : BitCursor) (hk : c.bitsLeft < k) (hm : c.bitsLeft < m) :
    scanZeros k lz c = scanZeros m lz c := by
  induction k generalizing m lz c with
  | zero => omega
  | succ k ih =>
    obtain ⟨m, rfl⟩ : ∃ n, m = n + 1 := ⟨m - 1, by omega⟩
    rcases readBit_cases c with ⟨hlt, h⟩ | ⟨-, h⟩
    · simp only [scanZeros, h, Attempt.andThen]
      have hl : (c.moveTo (c.pos + 1)).bitsLeft + 1 = c.bitsLeft := by
        simp only [BitCursor.bitsLeft, BitCursor.pos_moveTo, BitCursor.moveTo_buf]
        omega
      rw [ih m (lz + 1) _ (by omega) (by omega)]
    · simp only [scanZeros, h, Attempt.andThen]

/-- Either a first 1 stands at some distance from `p`, or every bit from `p` to the end is 0. -/
theorem first_one_or_none (buf : List Byte) (p : Nat) :
    (∃ z, (∀ j < z, bitAt buf (p + j) = 0) ∧ bitAt buf (p + z) = 1 ∧ p + z < 8 * buf.length) ∨
      (∀ q, p ≤ q → q < 8 * buf.length → bitAt buf q = 0) := by
  by_cases hex : ∃ z, bitAt buf (p + z) = 1 ∧ p + z < 8 * buf.length
  · classical
    refine .inl ⟨Nat.find hex, fun j hj => ?_, (Nat.find_spec hex).1, (Nat.find_spec hex).2⟩
    have hn := Nat.find_min hex hj
    have hlt := (Nat.find_spec hex).2
    have h2 := bitAt_lt_two buf (p + j)
    by_contra h0
    exact hn ⟨by omega, by omega⟩
  · refine .inr fun q hq hq' => ?_
    have h2 := bitAt_lt_two buf q
    by_contra h0
    exact hex ⟨q - p, by rw [Nat.add_sub_cancel' hq]; omega, by omega⟩

/-- ReadUE() over a whole code word (42_exp_golomb R130, R135). -/
theorem readUE_of_word {c : BitCursor} {z : Nat} (hz : ∀ j < z, bitAt c.buf (c.pos + j) = 0)
    (h1 : bitAt c.buf (c.pos + z) = 1) (hlen : c.pos + 2 * z + 1 ≤ 8 * c.buf.length) :
    readUE c = .done (2 ^ z - 1 + assemble (bitsFrom c.buf (c.pos + z + 1) z))
      (c.moveTo (c.pos + 2 * z + 1)) := by
  have hs := scanZeros_of_one z (c.bitsLeft + 1) 0 c
    (by simp only [BitCursor.bitsLeft]; omega) hz h1 (by omega)
  have hb : readBits z (c.moveTo (c.pos + z + 1)) = _ :=
    readBits_of_le (by rw [BitCursor.pos_moveTo, BitCursor.moveTo_buf]; omega)
  simp only [readUE, hs, Nat.zero_add, Attempt.andThen, hb, BitCursor.pos_moveTo,
    BitCursor.moveTo_buf, BitCursor.moveTo_moveTo]
  congr 2
  omega

/-- ReadUE() where the terminating 1 stands but the suffix runs past the end (42_exp_golomb R132). -/
theorem readUE_of_short {c : BitCursor} {z : Nat} (hz : ∀ j < z, bitAt c.buf (c.pos + j) = 0)
    (h1 : bitAt c.buf (c.pos + z) = 1) (hin : c.pos + z < 8 * c.buf.length)
    (hlen : 8 * c.buf.length < c.pos + 2 * z + 1) :
    readUE c = .raised .bufferExhausted (c.moveTo (8 * c.buf.length)) := by
  have hs := scanZeros_of_one z (c.bitsLeft + 1) 0 c
    (by simp only [BitCursor.bitsLeft]; omega) hz h1 hin
  have hb : readBits z (c.moveTo (c.pos + z + 1)) = _ :=
    readBits_of_gt (by rw [BitCursor.Inv, BitCursor.pos_moveTo, BitCursor.moveTo_buf]; omega)
      (by rw [BitCursor.pos_moveTo, BitCursor.moveTo_buf]; omega)
  simp only [readUE, hs, Nat.zero_add, Attempt.andThen, hb, BitCursor.moveTo_buf,
    BitCursor.moveTo_moveTo]

/-- ReadUE() where no 1 is left (42_exp_golomb R133). -/
theorem readUE_of_none {c : BitCursor} (hi : c.Inv)
    (hz : ∀ p, c.pos ≤ p → p < 8 * c.buf.length → bitAt c.buf p = 0) :
    readUE c = .raised .bufferExhausted (c.moveTo (8 * c.buf.length)) := by
  simp only [readUE, scanZeros_of_none (c.bitsLeft + 1) 0 c hi (Nat.lt_succ_self _) hz,
    Attempt.andThen]

/-- Everything ReadUE() can do from a state that keeps the invariant: a whole code word of `z` zeros, or the end of the
buffer. -/
theorem readUE_cases {c : BitCursor} (hi : c.Inv) :
    (∃ z, (∀ j < z, bitAt c.buf (c.pos + j) = 0) ∧ bitAt c.buf (c.pos + z) = 1 ∧
        c.pos + 2 * z + 1 ≤ 8 * c.buf.length ∧
        readUE c = .done (2 ^ z - 1 + assemble (bitsFrom c.buf (c.pos + z + 1) z))
          (c.moveTo (c.pos + 2 * z + 1))) ∨
      readUE c = .raised .bufferExhausted (c.moveTo (8 * c.buf.length)) := by
  rcases first_one_or_none c.buf c.pos with ⟨z, hz, h1, hin⟩ | hz
  · rcases Nat.lt_or_ge (8 * c.buf.length) (c.pos + 2 * z + 1) with hgt | hle
    · exact .inr (readUE_of_short hz h1 hin hgt)
    · exact .inl ⟨z, hz, h1, hle, readUE_of_word hz h1 hle⟩
  · exact .inr (readUE_of_none hi hz)

/-- Everything the backward move can do (40_cursor_and_buffer R89, R90). -/
theorem BitCursor.rewind_cases (n : Nat) (c : BitCursor) :
    (n ≤ c.pos ∧ c.rewind n = .done () (c.moveTo (c.pos - n))) ∨
      (c.pos < n ∧ c.rewind n = .raised .invalidRewind c) := by
  unfold BitCursor.rewind
  split
  · exact .inr ⟨‹_›, rfl⟩
  · exact .inl ⟨Nat.le_of_not_lt ‹_›, rfl⟩

/-- A procedure that only moves the cursor: whatever its outcome, the buffer is as before and the bit index has not
fallen. It holds in every state. -/
def Attempt.MovesForward {α : Type} (c : BitCursor) : Attempt α → Prop
  | .done _ d => d.buf = c.buf ∧ c.pos ≤ d.pos
  | .raised e d => e = .bufferExhausted ∧ d.buf = c.buf ∧ c.pos ≤ d.pos

theorem Attempt.MovesForward.andThen {α β : Type} {c : BitCursor} {x : Attempt α}
    {f : α → BitCursor → Attempt β} (hx : x.MovesForward c)
    (hf : ∀ a d, (f a d).MovesForward d) : (x.andThen f).MovesForward c := by
  cases x with
  | raised e d => exact hx
  | done a d =>
    obtain ⟨hb, hp⟩ := hx
    have h := hf a d
    simp only [Attempt.andThen]
    revert h
    cases f a d with
    | done b d' => exact fun ⟨hb', hp'⟩ => ⟨hb'.trans hb, hp.trans hp'⟩
    | raised e d' => exact fun ⟨he, hb', hp'⟩ => ⟨he, hb'.trans hb, hp.trans hp'⟩

theorem readBit_movesForward (c : BitCursor) : (readBit c).MovesForward c := by
  rcases readBit_cases c with ⟨-, h⟩ | ⟨-, h⟩ <;> rw [h]
  · exact ⟨rfl, by rw [BitCursor.pos_moveTo]; omega⟩
  · exact ⟨rfl, rfl, Nat.le_refl _⟩

theorem readBitsFrom_movesForward (n acc : Nat) (c : BitCursor) :
    (readBitsFrom n acc c).MovesForward c := by
  induction n generalizing acc c with
  | zero => exact ⟨rfl, Nat.le_refl _⟩
  | succ n ih => exact (readBit_movesForward c).andThen fun b d => ih _ d

theorem readBits_movesForward (n : Nat) (c : BitCursor) : (readBits n c).MovesForward c :=
  readBitsFrom_movesForward n 0 c

theorem readInt_movesForward (w : Nat) (c : BitCursor) : (readInt w c).MovesForward c :=
  (readBits_movesForward w c).andThen fun _ _ => ⟨rfl, Nat.le_refl _⟩

theorem scanZeros_movesForward (k lz : Nat) (c : BitCursor) : (scanZeros k lz c).MovesForward c := by
  induction k generalizing lz c with
  | zero => exact ⟨rfl, rfl, Nat.le_refl _⟩
  | succ k ih =>
    refine (readBit_movesForward c).andThen fun b d => ?_
    split
    · exact ⟨rfl, Nat.le_refl _⟩
    · exact ih _ d

theorem readUE_movesForward (c : BitCursor) : (readUE c).MovesForward c :=
  (scanZeros_movesForward _ _ c).andThen fun lz d =>
    (readBits_movesForward lz d).andThen fun _ _ => ⟨rfl, Nat.le_refl _⟩

end Sys2Proof.Machine
end

