-- ==== Sys2Proof/Laws/Memory.lean ====
section
/-! SUPPORT. The buffer as address and byte pairs: every buffer, so every memory operation's result, is in canonical
form; equal cells are equal buffers; and the cells read as MemRead does. -/

namespace Sys2Proof.Machine

theorem Memory.wfFrom_cellsFrom (a : Nat) (buf : List Byte) :
    Memory.wfFrom a (Memory.cellsFrom a buf) = true := by
  induction buf generalizing a with
  | nil => rfl
  | cons b rest ih => simp [Memory.cellsFrom, Memory.wfFrom, ih]

/-- The canonical form holds of every buffer. -/
theorem Memory.cells_wf (buf : List Byte) : Memory.wf (Memory.cells buf) = true :=
  Memory.wfFrom_cellsFrom 0 buf

theorem Memory.cells_wf_reset : Memory.wf (Memory.cells State.reset.cur.buf) = true := rfl

/-- CREATE, APPEND and TRIM keep the canonical form (20_memory R49: TRIM re-bases the addresses). -/
theorem Memory.ops_keep_wf (c : BitCursor) (p : List Byte) :
    Memory.wf (Memory.cells (BitCursor.over p).buf) = true ∧
      Memory.wf (Memory.cells (c.extend p).buf) = true ∧
      Memory.wf (Memory.cells c.trimmed.buf) = true :=
  ⟨Memory.cells_wf _, Memory.cells_wf _, Memory.cells_wf _⟩

theorem Memory.cellsFrom_injective (a : Nat) {x y : List Byte}
    (h : Memory.cellsFrom a x = Memory.cellsFrom a y) : x = y := by
  induction x generalizing a y with
  | nil => cases y with
    | nil => rfl
    | cons _ _ => simp [Memory.cellsFrom] at h
  | cons b rest ih => cases y with
    | nil => simp [Memory.cellsFrom] at h
    | cons d rest' =>
      simp only [Memory.cellsFrom, List.cons.injEq, Prod.mk.injEq, true_and] at h
      rw [h.1, ih (a + 1) h.2]

theorem Memory.read_cellsFrom (a : Nat) (buf : List Byte) (k : Nat) :
    Memory.read (Memory.cellsFrom a buf) (a + k) = memRead buf k := by
  induction buf generalizing a k with
  | nil => simp [Memory.cellsFrom, Memory.read, memRead]
  | cons b rest ih =>
    cases k with
    | zero => simp [Memory.cellsFrom, Memory.read, memRead]
    | succ k =>
      have hne : (a == a + (k + 1)) = false := beq_false_of_ne (by omega)
      have h := ih (a + 1) k
      rw [show a + 1 + k = a + (k + 1) by omega] at h
      simpa only [Memory.cellsFrom, Memory.read, memRead, List.find?_cons, hne,
        List.getElem?_cons_succ] using h

/-- The cells read as MemRead does. -/
theorem Memory.read_cells (buf : List Byte) (k : Nat) :
    Memory.read (Memory.cells buf) k = memRead buf k := by
  have := Memory.read_cellsFrom 0 buf k
  rwa [Nat.zero_add] at this

end Sys2Proof.Machine
end

