-- ==== Sys2Proof/Laws/PerInstr.lean ====
section
/-! SUPPORT. The family WordShape: the fields of every well-formed command's word and its payload (30_encoding R61, R62,
R75), one lemma per command. -/

namespace Sys2Proof.Laws.WordShape

/-- The word of a well-formed command has its opcode in bits 31..24 and its operand in bits 23..0, and its payload is as
long as its format says. -/
def Statement (i : Instr) : Prop :=
  i.wf = true →
    opField (encode i).word = opcode i ∧ operandField (encode i).word = operand i ∧
      (encode i).payload.length = followingBytes (encode i).word

/-- The fields of `op * 2^24 + n`. -/
theorem fields_of_word {op n : Nat} (hop : op < 256) (hn : n < 2 ^ 24) :
    opField (BitVec.ofNat 32 (op * 2 ^ 24 + n)) = op ∧
      operandField (BitVec.ofNat 32 (op * 2 ^ 24 + n)) = n := by
  simp only [opField, operandField, BitVec.toNat_ofNat]
  omega

theorem of_fields (i : Instr) (hop : opcode i < 256) (hn : operand i < 2 ^ 24)
    (hp : ∀ w, opField w = opcode i → operandField w = operand i →
      (payloadOf i).length = followingBytes w) : Statement i := fun _ => by
  obtain ⟨h1, h2⟩ := fields_of_word hop hn
  exact ⟨h1, h2, hp _ h1 h2⟩

theorem create (p : List Byte) : Statement (.create p) := fun h => by
  have hn : p.length < 2 ^ 24 := of_decide_eq_true h
  obtain ⟨h1, h2⟩ := fields_of_word (op := 1) (by decide) hn
  refine ⟨h1, h2, ?_⟩
  simp only [encode, opcode, operand, payloadOf, followingBytes, h1, h2]

theorem append (p : List Byte) : Statement (.append p) := fun h => by
  have hn : p.length < 2 ^ 24 := of_decide_eq_true h
  obtain ⟨h1, h2⟩ := fields_of_word (op := 2) (by decide) hn
  refine ⟨h1, h2, ?_⟩
  simp only [encode, opcode, operand, payloadOf, followingBytes, h1, h2]

theorem rewind (n : Nat) : Statement (.rewind n) := fun h => by
  have hn : n < 2 ^ 24 := of_decide_eq_true h
  obtain ⟨h1, h2⟩ := fields_of_word (op := 5) (by decide) hn
  refine ⟨h1, h2, ?_⟩
  simp only [encode, opcode, operand, payloadOf, followingBytes, h1, List.length_nil]

theorem rdbits (n : Nat) : Statement (.rdbits n) := fun h => by
  have hn : n < 2 ^ 24 := of_decide_eq_true h
  obtain ⟨h1, h2⟩ := fields_of_word (op := 0x12) (by decide) hn
  refine ⟨h1, h2, ?_⟩
  simp only [encode, opcode, operand, payloadOf, followingBytes, h1, List.length_nil]

theorem skip (n : Nat) : Statement (.skip n) := fun h => by
  have hn : n < 2 ^ 24 := of_decide_eq_true h
  obtain ⟨h1, h2⟩ := fields_of_word (op := 0x13) (by decide) hn
  refine ⟨h1, h2, ?_⟩
  simp only [encode, opcode, operand, payloadOf, followingBytes, h1, List.length_nil]

theorem trim : Statement .trim := fun _ => by decide
theorem index : Statement .index := fun _ => by decide
theorem rdbit : Statement .rdbit := fun _ => by decide
theorem rdflag : Statement .rdflag := fun _ => by decide
theorem rdu8 : Statement .rdu8 := fun _ => by decide
theorem rdu16 : Statement .rdu16 := fun _ => by decide
theorem rdu32 : Statement .rdu32 := fun _ => by decide
theorem rdu64 : Statement .rdu64 := fun _ => by decide
theorem rdi8 : Statement .rdi8 := fun _ => by decide
theorem rdi16 : Statement .rdi16 := fun _ => by decide
theorem rdi32 : Statement .rdi32 := fun _ => by decide
theorem rdi64 : Statement .rdi64 := fun _ => by decide
theorem rdue : Statement .rdue := fun _ => by decide
theorem rdse : Statement .rdse := fun _ => by decide

end Sys2Proof.Laws.WordShape
end

