-- ==== Sys2Proof/Machine/Listing.lean ====
section
/-! DEFINITION. How a command is written in a listing (30_encoding R72, the spec's own decision D22): the mnemonic, then
the count or the payload bytes; and beside it the word in hexadecimal with the payload. Nothing executes it. -/

namespace Sys2Proof

/-- The last `k` hexadecimal digits of `n`, in capitals, the most significant first. -/
def hexDigits : Nat → Nat → List Char
  | 0, _ => []
  | k + 1, n => hexDigits k (n / 16) ++ [if n % 16 < 10 then Char.ofNat (48 + n % 16) else Char.ofNat (55 + n % 16)]

/-- A number as `0x` and `k` digits. -/
def hexNumber (k n : Nat) : List Char := '0' :: 'x' :: hexDigits k n

/-- The decimal digits of a number. -/
def decimal (n : Nat) : List Char := Nat.toDigits 10 n

/-- The payload bytes between braces (the characters 123 and 125), separated by a comma and a space. -/
def bracedBytes (payload : List Byte) : List Char :=
  Char.ofNat 123 :: (List.intercalate [',', ' '] (payload.map fun b => hexNumber 2 b.toNat) ++ [Char.ofNat 125])

/-- A command as a line of a listing: `TRIM`, `RDBITS 5`, `APPEND` with its bytes in braces (30_encoding R72). -/
def Instr.listing (i : Instr) : List Char :=
  match i with
  | .create p => i.mnemonic.toList ++ ' ' :: bracedBytes p
  | .append p => i.mnemonic.toList ++ ' ' :: bracedBytes p
  | .rewind n => i.mnemonic.toList ++ ' ' :: decimal n
  | .rdbits n => i.mnemonic.toList ++ ' ' :: decimal n
  | .skip n => i.mnemonic.toList ++ ' ' :: decimal n
  | .trim => i.mnemonic.toList
  | .index => i.mnemonic.toList
  | .rdbit => i.mnemonic.toList
  | .rdflag => i.mnemonic.toList
  | .rdu8 => i.mnemonic.toList
  | .rdu16 => i.mnemonic.toList
  | .rdu32 => i.mnemonic.toList
  | .rdu64 => i.mnemonic.toList
  | .rdi8 => i.mnemonic.toList
  | .rdi16 => i.mnemonic.toList
  | .rdi32 => i.mnemonic.toList
  | .rdi64 => i.mnemonic.toList
  | .rdue => i.mnemonic.toList
  | .rdse => i.mnemonic.toList

/-- The encoding shown beside a line: the word, and ` + ` and the payload bytes when there are any (30_encoding R72). -/
def Command.listing (c : Command) : List Char :=
  hexNumber 8 c.word.toNat ++
    if c.payload = [] then []
    else ' ' :: '+' :: c.payload.flatMap fun b => ' ' :: hexDigits 2 b.toNat

end Sys2Proof
end

