-- ==== Sys2Proof/Tests/Slice0.lean ====
section
/-! SUPPORT. The model's own tests: the encodings of 30_encoding R63 written out bit by bit, the vectors of
95_test_vectors one step at a time, the checks of well-formedness, and a witness for the hypotheses of every
statement. -/

namespace Sys2Proof.Tests

open Sys2Proof Sys2Proof.Machine

/-- The machine over the bytes `buf` with the cursor at bit index `p`. -/
def cursorOn (buf : List Byte) (p : Nat) : State :=
  { State.reset with cur := (BitCursor.over buf).moveTo p }

/-- The same with a finite BUF_CAP. -/
def capped (cap : Nat) (buf : List Byte) (p : Nat) : State :=
  { cursorOn buf p with cfg := { bufCap := some cap } }

/-- What a vector's row shows: the response, `pos` and `len(buf)` after the command. -/
def seen (o : Host.Outcome State Fault Refusal) : Option (Option Response × Nat × Nat) :=
  match o with
  | .next t => some (t.resp, t.cur.pos, t.cur.buf.length)
  | .fault _ => none
  | .refused _ => none

/-- STATUS, the exact result and the position, for a row whose VALUE is unspecified. -/
def seenExact (o : Host.Outcome State Fault Refusal) : Option (Option Status × Option Result × Nat) :=
  match o with
  | .next t => some (t.resp.map Response.status, t.resp.bind Response.result, t.cur.pos)
  | .fault _ => none
  | .refused _ => none

/-- The response of a signed read (30_encoding R68). -/
def shownInt (z : Int) (v : Value) : Response := { status := .ok, result := some (.int z), value := some v }

/-- The response of a failed REWIND. -/
def badRewind : Response := { status := .invalidRewind, result := none, value := none }

/-! Decoding: `OP` in bits 31..24, `N` in bits 23..0 (30_encoding R61, R63; 95_test_vectors T-ENC). -/

theorem test_decode_create :
    decode ⟨0b00000001_000000000000000000000001, [0xA7]⟩ = .ok (.create [0xA7]) := by decide
theorem test_decode_append :
    decode ⟨0b00000010_000000000000000000000010, [0x34, 0x56]⟩ = .ok (.append [0x34, 0x56]) := by decide
theorem test_decode_trim : decode ⟨0b00000011_000000000000000000000000, []⟩ = .ok .trim := by decide
theorem test_decode_index : decode ⟨0b00000100_000000000000000000000000, []⟩ = .ok .index := by decide
theorem test_decode_rewind :
    decode ⟨0b00000101_000000000000000000001010, []⟩ = .ok (.rewind 10) := by decide
theorem test_decode_rdbit : decode ⟨0b00010000_000000000000000000000000, []⟩ = .ok .rdbit := by decide
theorem test_decode_rdflag : decode ⟨0b00010001_000000000000000000000000, []⟩ = .ok .rdflag := by decide
theorem test_decode_rdbits :
    decode ⟨0b00010010_111111111111111111111111, []⟩ = .ok (.rdbits 16777215) := by decide
theorem test_decode_skip :
    decode ⟨0b00010011_000000000000000000000100, []⟩ = .ok (.skip 4) := by decide
theorem test_decode_rdu8 : decode ⟨0b00100000_000000000000000000000000, []⟩ = .ok .rdu8 := by decide
theorem test_decode_rdu16 : decode ⟨0b00100001_000000000000000000000000, []⟩ = .ok .rdu16 := by decide
theorem test_decode_rdu32 : decode ⟨0b00100010_000000000000000000000000, []⟩ = .ok .rdu32 := by decide
theorem test_decode_rdu64 : decode ⟨0b00100011_000000000000000000000000, []⟩ = .ok .rdu64 := by decide
theorem test_decode_rdi8 : decode ⟨0b00101000_000000000000000000000000, []⟩ = .ok .rdi8 := by decide
theorem test_decode_rdi16 : decode ⟨0b00101001_000000000000000000000000, []⟩ = .ok .rdi16 := by decide
theorem test_decode_rdi32 : decode ⟨0b00101010_000000000000000000000000, []⟩ = .ok .rdi32 := by decide
theorem test_decode_rdi64 : decode ⟨0b00101011_000000000000000000000000, []⟩ = .ok .rdi64 := by decide
theorem test_decode_rdue : decode ⟨0b00110000_000000000000000000000000, []⟩ = .ok .rdue := by decide
theorem test_decode_rdse : decode ⟨0b00110001_000000000000000000000000, []⟩ = .ok .rdse := by decide

/-- The reserved words of 95_test_vectors T-DEC. -/
theorem test_reserved_words :
    ([0x00000000, 0xFFFFFFFF, 0x03000001, 0x04FFFFFF, 0x06000000, 0x0F000000, 0x10000001, 0x14000000, 0x1F000000,
      0x20000008, 0x24000000, 0x27000000, 0x2C000000, 0x2F000000, 0x31000001, 0x32000000, 0x80000000] : List Word).all
      (fun w => (decode ⟨w, []⟩).toOption.isNone) = true := by decide

/-- 30_encoding R65: one byte short, one too many, and a payload where none belongs. -/
theorem test_wrong_payloads :
    decode ⟨0x01000002, [0xA7]⟩ = .error (.payloadLength 2 1) ∧
      decode ⟨0x02000000, [0xA7]⟩ = .error (.payloadLength 0 1) ∧
      decode ⟨0x13000004, [0xA7]⟩ = .error (.payloadLength 0 1) ∧
      decode ⟨0x04000000, [0xA7]⟩ = .error (.payloadLength 0 1) := by decide

/-- No word selects two rows of the opcode map: two patterns differ under the masks' common bits. -/
theorem test_rows_disjoint :
    opcodeRows.Pairwise (fun a b => a.pattern &&& b.mask ≠ b.pattern &&& a.mask) := by decide

/-- The table's numbering, a payload byte counted on from bit 32. -/
theorem test_table_word :
    decodeTableWord 40 0xA7_01000001 = some (.create [0xA7]) ∧
      decodeTableWord 32 0x01000001 = some (.create [0]) ∧ decodeTableWord 32 0x06000000 = none := by
  decide

/-- The examples of 30_encoding R72 and the encodings of 95_test_vectors beside them. -/
theorem test_listing :
    (Instr.rdbits 5).listing = "RDBITS 5".toList ∧ (Instr.trim).listing = "TRIM".toList ∧
      (encode (.append [0x34, 0x56])).listing = "0x02000002 + 34 56".toList ∧
      (Instr.append [0x02, 0x80]).listing.length = "APPEND (0x02, 0x80)".toList.length := by decide

/-! Well-formedness: each check refuses a term beyond its bound. -/

theorem test_wf_refuses_counts :
    (Instr.rewind 16777216).wf = false ∧ (Instr.rdbits 16777216).wf = false ∧
      (Instr.skip 16777216).wf = false ∧ (Instr.rewind 16777215).wf = true := by decide

theorem test_wf_refuses_payloads :
    (Instr.create (List.replicate 16777216 0)).wf = false ∧
      (Instr.append (List.replicate 16777216 0)).wf = false := by
  simp only [Instr.wf, countLimit, List.length_replicate]
  decide

/-! The step -/

/-- A placed command runs as the first after reset. -/
theorem test_step_runs_placed_word :
    seen (step (State.reset.withFetchWord 32 0x04000000)) = some (some (shownNat 0), 0, 0) := by decide

/-- A reserved word, two sources at once, and the reset event (10_state R36). -/
theorem test_step_refuses_and_resets :
    seen (step (State.reset.withFetchWord 32 0x06000000)) = none ∧
      seen (step { cursorOn [0xA7] 3 with port := [.unserialised ⟨0, []⟩ ⟨0, []⟩] }) = none ∧
      seen (step { cursorOn [0xA7] 3 with port := [.reset] }) = some (none, 0, 0) := by decide

/-! The vectors of 95_test_vectors, one command each -/

/-- T-CR1: re-creating over an old buffer. -/
theorem test_create_replaces :
    seen (exec (.create [0x80]) (cursorOn [0xA7, 0x5C] 11)) = some (some plainOk, 0, 1) := by decide
/-- R84: one byte beyond BUF_CAP. -/
theorem test_create_over_capacity : seen (exec (.create [1, 2, 3]) (capped 2 [] 0)) = none := by decide
/-- T-AP1. -/
theorem test_append_keeps_position :
    seen (exec (.append [0x5C]) (cursorOn [0xA7] 5)) = some (some plainOk, 5, 2) := by decide
/-- S9. -/
theorem test_trim_drops_bytes :
    seen (exec .trim (cursorOn [0xAA, 0xBB, 0xCC] 11)) = some (some plainOk, 3, 2) := by decide
/-- T-TR2: at the end everything goes. -/
theorem test_trim_at_end : seen (exec .trim (cursorOn [0xFF] 8)) = some (some plainOk, 0, 0) := by decide
/-- P1. -/
theorem test_index_value :
    seen (exec .index (cursorOn [0xD3, 0x1F, 0x0C] 22)) = some (some (shownNat 22), 22, 3) := by decide
/-- T-RW1: borrowing across a byte boundary. -/
theorem test_rewind_borrows :
    seen (exec (.rewind 4) (cursorOn [0xA7, 0x5C] 11)) = some (some plainOk, 7, 2) := by decide
/-- S7. -/
theorem test_rewind_too_far :
    seen (exec (.rewind 10) (cursorOn [0xA7, 0x5C] 8)) = some (some badRewind, 8, 2) := by decide
/-- T-RB1: the eighth bit and the carry. -/
theorem test_rdbit_carries :
    seen (exec .rdbit (cursorOn [0xA7] 7)) = some (some (shownNat 1), 8, 1) := by decide
/-- T-RB1: the ninth read. -/
theorem test_rdbit_exhausted :
    seen (exec .rdbit (cursorOn [0xA7] 8)) = some (some exhausted, 8, 1) := by decide
/-- S3. -/
theorem test_rdflag_true_then_false :
    seen (exec .rdflag (cursorOn [0xA7] 0)) =
        some (some { status := .ok, result := some (.flag true), value := some 1 }, 1, 1) ∧
      seen (exec .rdflag (cursorOn [0xA7] 1)) =
        some (some { status := .ok, result := some (.flag false), value := some 0 }, 2, 1) := by decide
/-- T-BS1: across a byte boundary from an unaligned start. -/
theorem test_rdbits_crosses_bytes :
    seen (exec (.rdbits 8) (cursorOn [0xA7, 0x5C] 3)) = some (some (shownNat 58), 11, 2) := by decide
/-- T-BS4 and T-BS6: one bit too many; a result of 2^64, whose VALUE is unspecified. -/
theorem test_rdbits_short_and_wide :
    seen (exec (.rdbits 14) (cursorOn [0xA7, 0x5C] 3)) = some (some exhausted, 16, 2) ∧
      seenExact (exec (.rdbits 65) (cursorOn [0x80, 0, 0, 0, 0, 0, 0, 0, 0] 0)) =
        some (some .ok, some (.nat 18446744073709551616), 65) := by decide
/-- T-SK. -/
theorem test_skip_to_end_and_beyond :
    seen (exec (.skip 16) (cursorOn [0xA7, 0x5C] 0)) = some (some plainOk, 16, 2) ∧
      seen (exec (.skip 100) (cursorOn [0xA7, 0x5C] 5)) = some (some exhausted, 16, 2) := by decide
/-- S3. -/
theorem test_rdu8 : seen (exec .rdu8 (cursorOn [0xA7] 0)) = some (some (shownNat 167), 8, 1) := by decide
/-- T-U. -/
theorem test_rdu16_unaligned :
    seen (exec .rdu16 (cursorOn [0x0F, 0xF0, 0x0F] 4)) = some (some (shownNat 65280), 20, 3) := by decide
/-- S4. -/
theorem test_rdu32 :
    seen (exec .rdu32 (cursorOn [0xFC, 0xDA, 0x5F, 0xAF] 0)) =
      some (some (shownNat 4242169775), 32, 4) := by decide
/-- T-Ushort. -/
theorem test_rdu32_short :
    seen (exec .rdu32 (cursorOn [0xAB, 0xCD, 0xEF] 0)) = some (some exhausted, 24, 3) := by decide
/-- T-W. -/
theorem test_rdu64 :
    seen (exec .rdu64 (cursorOn [1, 2, 3, 4, 5, 6, 7, 8] 0)) =
      some (some (shownNat 72623859790382856), 64, 8) := by decide
/-- S8. -/
theorem test_rdu64_short :
    seen (exec .rdu64 (cursorOn [0x12, 0x34] 0)) = some (some exhausted, 16, 2) := by decide
/-- T-W. -/
theorem test_rdi8 :
    seen (exec .rdi8 (cursorOn [0xA7] 0)) = some (some (shownInt (-89) 0xFFFFFFFFFFFFFFA7), 8, 1) := by decide
/-- T-Ishort: not an unchanged position. -/
theorem test_rdi8_short : seen (exec .rdi8 (cursorOn [0xAB] 1)) = some (some exhausted, 8, 1) := by decide
/-- T-I. -/
theorem test_rdi16_unaligned :
    seen (exec .rdi16 (cursorOn [0x0F, 0xF0, 0x0F] 4)) =
      some (some (shownInt (-256) 0xFFFFFFFFFFFFFF00), 20, 3) := by decide
/-- S4. -/
theorem test_rdi32 :
    seen (exec .rdi32 (cursorOn [0xFC, 0xDA, 0x5F, 0xAF] 0)) =
      some (some (shownInt (-52797521) 0xFFFFFFFFFCDA5FAF), 32, 4) := by decide
/-- T-W: the most negative number. -/
theorem test_rdi64_most_negative :
    seen (exec .rdi64 (cursorOn [0x80, 0, 0, 0, 0, 0, 0, 0] 0)) =
      some (some (shownInt (-9223372036854775808) 0x8000000000000000), 64, 8) := by decide
/-- S5 and T-UE-F2: a code word; a terminating 1 without its suffix. -/
theorem test_rdue_word_and_short :
    seen (exec .rdue (cursorOn [0x03, 0x00] 4)) = some (some (shownNat 5), 9, 2) ∧
      seen (exec .rdue (cursorOn [0x01] 0)) = some (some exhausted, 8, 1) := by decide
/-- T-UE-big: `2^64 - 2` is shown; `2^64` is not. -/
theorem test_rdue_at_the_width :
    seen (exec .rdue (cursorOn [0, 0, 0, 0, 0, 0, 0, 1, 255, 255, 255, 255, 255, 255, 255, 254] 0)) =
        some (some (shownNat 18446744073709551614), 127, 16) ∧
      seenExact (exec .rdue (cursorOn [0, 0, 0, 0, 0, 0, 0, 0, 128, 0, 0, 0, 0, 0, 0, 0, 128] 0)) =
        some (some .ok, some (.nat 18446744073709551616), 129) := by decide
/-- S5. -/
theorem test_rdse_minus_three :
    seen (exec .rdse (cursorOn [0x03, 0x80] 4)) = some (some (shownInt (-3) 0xFFFFFFFFFFFFFFFD), 9, 2) := by
  decide
/-- T-UE-big: the largest shown code value, and the first whose VALUE is unspecified. -/
theorem test_rdse_at_the_width :
    seen (exec .rdse (cursorOn [0, 0, 0, 0, 0, 0, 0, 1, 255, 255, 255, 255, 255, 255, 255, 254] 0)) =
        some (some (shownInt (-9223372036854775807) 0x8000000000000001), 127, 16) ∧
      seenExact (exec .rdse (cursorOn [0, 0, 0, 0, 0, 0, 0, 0, 128, 0, 0, 0, 0, 0, 0, 0, 0] 0)) =
        some (some .ok, some (.int 9223372036854775808), 129) := by decide

/-! A witness for the hypotheses of every statement, at the boundary values of its clauses. Each names its statement. -/

/-- The state after a command, for the witnesses. -/
def after (i : Instr) (s : State) : State :=
  match exec i s with
  | .next t => t
  | .fault _ => s
  | .refused _ => s

/-- The bytes of T-BS1. -/
def two : List Byte := [0xA7, 0x5C]

/-- A cursor at byte `k`, bit 7, whose index is `8*k + 7`. -/
def farAt (k : Nat) : State := { State.reset with cur := { buf := [], byo := k, bio := 7 } }

theorem witness_HostResetRestoresTheEmptyCursor :
    ({ cursorOn two 3 with port := [.reset, .reset] } : State).port = .reset :: [.reset] := rfl

theorem witness_StepRunsTheDecodedCommand :
    ({ cursorOn two 3 with port := [.command ⟨0x10000000, []⟩] } : State).port =
      .command ⟨0x10000000, []⟩ :: [] ∧ decode ⟨0x10000000, []⟩ = .ok .rdbit := by decide

theorem witness_PlacedCommandRunsNext : decodeTableWord 32 0x10000000 = some .rdbit := by decide

theorem witness_UndefinedRequestsAreRefused :
    ({ cursorOn two 3 with port := [.command ⟨0x06000000, []⟩] } : State).port =
      .command ⟨0x06000000, []⟩ :: [] ∧ decode ⟨0x06000000, []⟩ = .error (.reservedOpcode 6) ∧
      ({ cursorOn two 3 with port := [.unserialised ⟨0, []⟩ ⟨1, []⟩] } : State).port =
        .unserialised ⟨0, []⟩ ⟨1, []⟩ :: [] := by decide

theorem witness_IdleStepHoldsTheUnit : (cursorOn two 3).port = [] := rfl

/-- A command, the reset event and an idle step, each from a state within the invariant. -/
theorem witness_EveryStepKeepsTheCursorInTheBuffer :
    (∃ t, ({ cursorOn two 16 with port := [.command ⟨0x10000000, []⟩] } : State).Inv ∧
      step { cursorOn two 16 with port := [.command ⟨0x10000000, []⟩] } = .next t) ∧
    (∃ t, ({ capped 2 two 16 with port := [.reset] } : State).Inv ∧
      step { capped 2 two 16 with port := [.reset] } = .next t) ∧
    ∃ t, (cursorOn two 16).Inv ∧ step (cursorOn two 16) = .next t :=
  ⟨⟨_, by decide, rfl⟩, ⟨_, by decide, rfl⟩, ⟨_, by decide, rfl⟩⟩

theorem witness_BufferChangesOnlyByCreateAppendTrim :
    (∃ t, exec (.create [0x80]) (cursorOn two 11) = .next t) ∧
      (∃ t, exec (.append [0x80]) (cursorOn two 11) = .next t) ∧
      (∃ t, exec .trim (cursorOn two 11) = .next t) ∧
      (∃ t, exec (.rewind 3) (cursorOn two 11) = .next t) ∧ reshapes (.rewind 3) = false :=
  ⟨⟨_, rfl⟩, ⟨_, rfl⟩, ⟨_, rfl⟩, ⟨_, rfl⟩, rfl⟩

theorem witness_ByteOffsetFallsOnlyByRewindTrimCreate :
    (∃ t, exec .rdbit (cursorOn two 7) = .next t) ∧ mayMoveBack .rdbit = false ∧
      (∃ t, exec .trim (cursorOn two 11) = .next t) ∧
      ∃ t, exec (.create []) (cursorOn two 11) = .next t :=
  ⟨⟨_, rfl⟩, rfl, ⟨_, rfl⟩, ⟨_, rfl⟩⟩

/-- Two units with equal cursors; the counters differ in the first pair and agree in the second. -/
theorem witness_CommandDependsOnTheUnitAlone :
    (∃ t, (cursorOn two 3).cur = ({ cursorOn two 3 with draws := 4 } : State).cur ∧
      (cursorOn two 3).cfg = ({ cursorOn two 3 with draws := 4 } : State).cfg ∧
      exec .rdu8 (cursorOn two 3) = .next t ∧ t.draws = (cursorOn two 3).draws) ∧
    ∃ t, (farAt (2 ^ 61)).cur = ({ farAt (2 ^ 61) with resp := some plainOk } : State).cur ∧
      exec .index (farAt (2 ^ 61)) = .next t ∧
      (farAt (2 ^ 61)).draws = ({ farAt (2 ^ 61) with resp := some plainOk } : State).draws :=
  ⟨⟨_, rfl, rfl, rfl, rfl⟩, ⟨_, rfl, rfl, rfl⟩⟩

theorem witness_EveryCommandKeepsItsFrame :
    (∃ t, exec .index (cursorOn two 3) = .next t) ∧
      (∃ t, exec (.rdbits 5) (cursorOn two 3) = .next t) ∧
      mayDraw .rdbit = false ∧ reshapes (.rdbits 5) = false ∧
      (∃ t, exec (.append [0x80]) (cursorOn two 3) = .next t) ∧
      1 < (cursorOn two 3).cur.buf.length ∧ (cursorOn two 3).cur.buf.length + 1 ≤ 3 ∧
      ∃ t, exec .trim (cursorOn two 11) = .next t :=
  ⟨⟨_, rfl⟩, ⟨_, rfl⟩, rfl, rfl, ⟨_, rfl⟩, by decide, by decide, ⟨_, rfl⟩⟩

/-- The capacity met exactly and exceeded by one; a response with a value, without one, and a failure. -/
theorem witness_EveryAdmittedCommandAnswers :
    (capped 2 [] 0).admits (.create two) = true ∧ (capped 2 two 0).admits (.append []) = true ∧
      (capped 2 [] 0).admits (.create [1, 2, 3]) = false ∧
      (capped 2 two 0).admits (.append [1]) = false ∧
      ((after .rdbit (cursorOn two 15)).resp.map Response.status = some .ok) ∧
      ((after .trim (cursorOn two 15)).resp.map Response.status = some .ok) ∧
      (after .rdbit (cursorOn two 16)).resp.map Response.status ≠ some .ok := by decide

theorem witness_ExhaustionLeavesTheCursorAtTheEnd :
    (cursorOn two 1).Inv ∧ exec .rdu16 (cursorOn two 1) = .next (after .rdu16 (cursorOn two 1)) ∧
      (after .rdu16 (cursorOn two 1)).resp = some exhausted ∧ exhausted.status = .bufferExhausted :=
  ⟨by decide, rfl, by decide, rfl⟩

theorem witness_InvalidRewindComesFromRewindAlone :
    exec (.rewind 9) (cursorOn two 8) = .next (after (.rewind 9) (cursorOn two 8)) ∧
      (after (.rewind 9) (cursorOn two 8)).resp = some badRewind ∧ badRewind.status = .invalidRewind ∧
      exec (.rewind 8) (cursorOn two 8) = .next (after (.rewind 8) (cursorOn two 8)) ∧
      (after (.rewind 8) (cursorOn two 8)).resp = some plainOk :=
  ⟨rfl, by decide, rfl, rfl, by decide⟩

theorem witness_CreateStartsANewCursor :
    (capped 2 [1] 3).hasRoom two.length = true ∧ (cursorOn [1] 3).hasRoom two.length = true ∧
      (capped 0 [] 0).hasRoom ([] : List Byte).length = true := by decide

/-- A read of one bit; an APPEND at the capacity exactly. -/
theorem witness_EmptyCreateFailsEveryReadUntilAppend :
    bitCount (.rdbits 1) = some 1 ∧ 0 < 1 ∧ bitCount .rdflag = some 1 ∧
      (capped 1 two 5).hasRoom [(0x80 : Byte)].length = true := by decide

/-- At the capacity exactly; the position at the old end, and at the last bit of the new buffer. -/
theorem witness_AppendExtendsTheBufferAndKeepsThePosition :
    (capped 3 two 16).hasRoom ((capped 3 two 16).cur.buf.length + [(0x80 : Byte)].length) = true ∧
      1 < (capped 3 two 16).cur.buf.length ∧
      (capped 3 two 16).cur.pos < 8 * ((capped 3 two 16).cur.buf.length + [(0x80 : Byte)].length) ∧
      (capped 3 two 23).cur.pos < 8 * ((capped 3 two 23).cur.buf.length + [(0x80 : Byte)].length) := by
  decide

theorem witness_CapacityOverrunIsRefused :
    (capped 2 two 0).cfg.bufCap = some 2 ∧ (cursorOn two 0).cfg.bufCap = none := by decide

theorem witness_TrimKeepsWhatIsUnread :
    (cursorOn two 15).Inv ∧ exec .trim (cursorOn two 15) = .next (after .trim (cursorOn two 15)) ∧
      7 < 8 * (after .trim (cursorOn two 15)).cur.buf.length ∧
      (cursorOn two 16).Inv ∧ exec .trim (cursorOn two 16) = .next (after .trim (cursorOn two 16)) ∧
      ∀ i ∈ [Instr.rdbit, .rdue, .rdse, .skip 9], bitCount i ≠ none ∨ i = .rdue ∨ i = .rdse :=
  ⟨by decide, rfl, by decide, by decide, rfl, by decide⟩

theorem witness_IndexReturnsThePosition :
    (farAt (2 ^ 61 - 1)).cur.pos = 2 ^ 64 - 1 ∧ (farAt (2 ^ 61 - 1)).cur.pos < 2 ^ 64 ∧
      2 ^ 64 ≤ ({ farAt (2 ^ 61) with cur := { buf := [], byo := 2 ^ 61, bio := 0 } } : State).cur.pos ∧
      (∃ t, exec .trim (cursorOn two 11) = .next t) ∧ ∃ t, exec (.create two) (capped 2 [1] 3) = .next t :=
  ⟨by decide, by decide, by decide, ⟨_, rfl⟩, ⟨_, rfl⟩⟩

theorem witness_IndexFitsUnderAFiniteCapacity :
    (capped 2 two 16).Inv ∧ (capped 2 two 16).cfg.bufCap = some 2 := by decide

theorem witness_RewindMovesBackOrFailsUnmoved :
    11 ≤ (cursorOn two 11).cur.pos ∧ (cursorOn two 11).cur.pos < 12 := by decide

/-- The reads cross into the second byte and end at the end of the buffer. -/
theorem witness_RewindUndoesSingleBitReads :
    runAll (List.replicate 4 .rdbit) (cursorOn [0xA7, 0x80] 6) =
      some ([shownNat 1, shownNat 1, shownNat 1, shownNat 0],
        { cursorOn [0xA7, 0x80] 10 with resp := some (shownNat 0) }) ∧
      ∀ r ∈ [shownNat 1, shownNat 1, shownNat 1, shownNat 0], r.status = .ok := by decide

theorem witness_RewindCannotReachTrimmedBytes :
    exec .trim (cursorOn two 15) = .next (after .trim (cursorOn two 15)) ∧
      exec (.rewind 8) (after .trim (cursorOn two 15)) =
        .next (after (.rewind 8) (after .trim (cursorOn two 15))) ∧ 8 ≤ 8 :=
  ⟨rfl, rfl, Nat.le_refl 8⟩

/-- With an APPEND and a failed read between, and without an APPEND. -/
theorem witness_CheckpointAndRewindRestoreThePosition :
    runAll [.append [0x80], .skip 100] (cursorOn two 3) =
        some ([plainOk, exhausted], { cursorOn [0xA7, 0x5C, 0x80] 24 with resp := some exhausted }) ∧
      (∀ i ∈ [Instr.append [0x80], .skip 100], i ≠ .trim) ∧
      (cursorOn two 3).cur.pos ≤ (cursorOn [0xA7, 0x5C, 0x80] 24).cur.pos ∧
      runAll [.skip 5, .rewind 5] (cursorOn two 3) =
        some ([plainOk, plainOk], { cursorOn two 3 with resp := some plainOk }) ∧
      ∀ i ∈ [Instr.skip 5, .rewind 5], reshapes i = false ∧ i ≠ .trim := by decide

theorem witness_CheckpointAndRewindRestoreThePosition_noCreate :
    ∀ i ∈ [Instr.append [0x80], .skip 100, .skip 5, .rewind 5], ∀ p, i ≠ .create p := by simp

/-- The first and the last bit of a byte; the end of the buffer. -/
theorem witness_SingleBitReadTakesOneBit :
    memRead (cursorOn two 8).cur.buf (cursorOn two 8).cur.byo = some 0x5C ∧
      memRead (cursorOn two 15).cur.buf (cursorOn two 15).cur.byo = some 0x5C ∧
      (cursorOn two 15).cur.bio = 7 ∧
      (cursorOn two 16).cur.buf.length ≤ (cursorOn two 16).cur.byo := by decide

theorem witness_FailedBitReadSucceedsAfterAppend :
    (capped 3 two 16).Inv ∧ exec .rdbit (capped 3 two 16) = .next (after .rdbit (capped 3 two 16)) ∧
      (after .rdbit (capped 3 two 16)).resp = some exhausted ∧
      (capped 3 two 16).hasRoom ((capped 3 two 16).cur.buf.length + [(0x80 : Byte)].length) = true :=
  ⟨by decide, rfl, by decide, by decide⟩

theorem witness_FlagReadFollowsTheBitRead :
    (cursorOn two 15).cur.pos < 8 * (cursorOn two 15).cur.buf.length ∧
      8 * (cursorOn two 16).cur.buf.length ≤ (cursorOn two 16).cur.pos := by decide

/-- Exactly the bits left, one too many, and 65 bits whose number is `2^64`. -/
theorem witness_ReadBitsAccumulatesMsbFirst :
    (cursorOn two 3).cur.pos + 13 ≤ 8 * (cursorOn two 3).cur.buf.length ∧
      assemble (bitsFrom two 3 13) < 2 ^ 64 ∧
      (cursorOn two 3).Inv ∧ 8 * (cursorOn two 3).cur.buf.length < (cursorOn two 3).cur.pos + 14 ∧
      (cursorOn [128, 0, 0, 0, 0, 0, 0, 0, 0] 0).cur.pos + 65 ≤ 72 ∧
      2 ^ 64 ≤ assemble (bitsFrom [128, 0, 0, 0, 0, 0, 0, 0, 0] 0 65) := by decide

theorem witness_ReadBitsReturnsTheBigEndianField :
    (cursorOn two 3).cur.pos + 13 ≤ 8 * (cursorOn two 3).cur.buf.length ∧
      (cursorOn two 16).cur.pos + 0 ≤ 8 * (cursorOn two 16).cur.buf.length := by decide

theorem witness_FixedLengthReadsSucceedExactlyWhenTheBitsAreThere :
    bitCount .rdi16 = some 16 ∧ (cursorOn two 0).Inv ∧ (cursorOn two 1).Inv ∧
      (cursorOn two 0).cur.pos + 16 ≤ 8 * (cursorOn two 0).cur.buf.length ∧
      8 * (cursorOn two 1).cur.buf.length < (cursorOn two 1).cur.pos + 16 := by decide

theorem witness_WideReadIsThatManySingleBitReads :
    (cursorOn two 3).cur.pos + 13 ≤ 8 * (cursorOn two 3).cur.buf.length := by decide

theorem witness_AdjacentReadsConcatenate :
    (cursorOn two 3).cur.pos + (5 + 8) ≤ 8 * (cursorOn two 3).cur.buf.length := by decide

/-- Each width with exactly its bits left; a byte-aligned pair; the 16-bit buffer. -/
theorem witness_UnsignedReadsAreReadBitsOfTheirWidth :
    (cursorOn [1, 2] 8).cur.pos + 8 ≤ 8 * 2 ∧ (cursorOn [1, 2] 0).cur.pos + 16 ≤ 8 * 2 ∧
      (cursorOn [1, 2, 3, 4] 0).cur.pos + 32 ≤ 8 * 4 ∧
      (cursorOn [1, 2, 3, 4, 5, 6, 7, 8] 0).cur.pos + 64 ≤ 8 * 8 ∧
      (cursorOn [1, 2, 3] 8).cur.bio = 0 ∧
      memRead (cursorOn [1, 2, 3] 8).cur.buf (cursorOn [1, 2, 3] 8).cur.byo = some 2 ∧
      memRead (cursorOn [1, 2, 3] 8).cur.buf ((cursorOn [1, 2, 3] 8).cur.byo + 1) = some 3 ∧
      (cursorOn two 0).cur.buf.length = 2 ∧ (cursorOn two 0).cur.pos = 0 := by decide

/-- Each width with exactly its bits left and one too few; the cursor of the worked example. -/
theorem witness_SignedReadsReinterpretTheBits :
    (cursorOn [1, 2] 8).cur.pos + 8 ≤ 8 * 2 ∧ (cursorOn [1, 2] 0).cur.pos + 16 ≤ 8 * 2 ∧
      (cursorOn [1, 2, 3, 4] 0).cur.pos + 32 ≤ 8 * 4 ∧
      (cursorOn [1, 2, 3, 4, 5, 6, 7, 8] 0).cur.pos + 64 ≤ 8 * 8 ∧
      (cursorOn [1, 2] 9).Inv ∧ 8 * 2 < (cursorOn [1, 2] 9).cur.pos + 8 ∧
      8 * 2 < (cursorOn [1, 2] 9).cur.pos + 64 ∧
      (cursorOn [0xfc, 0xda, 0x5f, 0xaf] 0).cur =
        { buf := [0xfc, 0xda, 0x5f, 0xaf], byo := 0, bio := 0 } := by decide

theorem witness_SkipMovesAsTheReadAndComposes :
    (cursorOn two 3).Inv ∧ (cursorOn two 3).cur.pos + 13 ≤ 8 * (cursorOn two 3).cur.buf.length ∧
      8 * (cursorOn two 3).cur.buf.length < (cursorOn two 3).cur.pos + 14 := by decide

/-- `k` bits left, so that every RDBIT fails; and a successful read of each kind. -/
theorem witness_AdvanceLaw :
    (cursorOn two 3).cur.pos + 13 ≤ 8 * (cursorOn two 3).cur.buf.length ∧
      (cursorOn two 3).cur.pos + 10 ≤ 8 * (cursorOn two 3).cur.buf.length ∧
      exec (.rdbits 13) (cursorOn two 3) = .next (after (.rdbits 13) (cursorOn two 3)) ∧
      (after (.rdbits 13) (cursorOn two 3)).resp.map Response.status = some .ok ∧
      exec .rdbit (cursorOn two 15) = .next (after .rdbit (cursorOn two 15)) ∧
      (after .rdbit (cursorOn two 15)).resp.map Response.status = some .ok :=
  ⟨by decide, by decide, rfl, by decide, rfl, by decide⟩

theorem witness_PackingLaw :
    (capped 2 [] 0).hasRoom two.length = true ∧ Instr.rdu8 ∈ [Instr.rdu8, .rdbits 8] := by decide

theorem witness_RetryAfterAppendReadsTheAppendedBytes :
    (cursorOn two 1).Inv ∧ exec .rdu32 (cursorOn two 1) = .next (after .rdu32 (cursorOn two 1)) ∧
      (after .rdu32 (cursorOn two 1)).resp = some exhausted ∧
      exec (.append [0x80]) (after .rdu32 (cursorOn two 1)) =
        .next (after (.append [0x80]) (after .rdu32 (cursorOn two 1))) ∧
      8 ≤ 8 * [(0x80 : Byte)].length :=
  ⟨by decide, rfl, by decide, rfl, by decide⟩

/-- `00101` and `1` ending at the end of the buffer; a word of `2^64`, whose VALUE is free. -/
theorem witness_UnsignedGolombDecodesTheCodeWord :
    (∀ j < 2, bitAt (cursorOn [0x05] 3).cur.buf ((cursorOn [0x05] 3).cur.pos + j) = 0) ∧
      bitAt (cursorOn [0x05] 3).cur.buf ((cursorOn [0x05] 3).cur.pos + 2) = 1 ∧
      (cursorOn [0x05] 3).cur.pos + 2 * 2 + 1 ≤ 8 * (cursorOn [0x05] 3).cur.buf.length ∧
      bitAt (cursorOn [0x05] 7).cur.buf ((cursorOn [0x05] 7).cur.pos + 0) = 1 ∧
      (cursorOn [0x05] 7).cur.pos + 2 * 0 + 1 ≤ 8 * (cursorOn [0x05] 7).cur.buf.length ∧
      2 ^ 64 ≤ 2 ^ 64 - 1 +
        assemble (bitsFrom [0, 0, 0, 0, 0, 0, 0, 0, 128, 0, 0, 0, 0, 0, 0, 0, 128] 65 64) := by decide

/-- A tail of zeros after a 1 already read, and the end of the buffer, where no bit is left. -/
theorem witness_AllZeroTailExhaustsTheScan :
    (cursorOn [0x80, 0] 1).Inv ∧
      (∀ p, (cursorOn [0x80, 0] 1).cur.pos ≤ p → p < 8 * (cursorOn [0x80, 0] 1).cur.buf.length →
        bitAt (cursorOn [0x80, 0] 1).cur.buf p = 0) ∧
      (cursorOn [0xFF] 8).Inv ∧
      ∀ p, (cursorOn [0xFF] 8).cur.pos ≤ p → p < 8 * (cursorOn [0xFF] 8).cur.buf.length →
        bitAt (cursorOn [0xFF] 8).cur.buf p = 0 := by
  refine ⟨by decide, by decide, by decide, ?_⟩
  intro p h1 h2
  exact absurd h2 (Nat.not_lt.mpr h1)

/-- One suffix bit short: `0 0 1 x` at the end of the buffer. -/
theorem witness_TruncatedSuffixExhaustsTheRead :
    (∀ j < 2, bitAt (cursorOn [0x02] 4).cur.buf ((cursorOn [0x02] 4).cur.pos + j) = 0) ∧
      bitAt (cursorOn [0x02] 4).cur.buf ((cursorOn [0x02] 4).cur.pos + 2) = 1 ∧
      (cursorOn [0x02] 4).cur.pos + 2 < 8 * (cursorOn [0x02] 4).cur.buf.length ∧
      8 * (cursorOn [0x02] 4).cur.buf.length < (cursorOn [0x02] 4).cur.pos + 2 * 2 + 1 := by decide

/-- The code words of 0 and of 6, the second ending at the end of the buffer. -/
theorem witness_EveryNumberHasItsCodeWord :
    (cursorOn [0x87] 0).cur.pos + (2 * Nat.log2 (0 + 1) + 1) ≤ 8 * (cursorOn [0x87] 0).cur.buf.length ∧
      assemble (bitsFrom (cursorOn [0x87] 0).cur.buf (cursorOn [0x87] 0).cur.pos
        (2 * Nat.log2 (0 + 1) + 1)) = 0 + 1 ∧
      (cursorOn [0x87] 3).cur.pos + (2 * Nat.log2 (6 + 1) + 1) ≤ 8 * (cursorOn [0x87] 3).cur.buf.length ∧
      assemble (bitsFrom (cursorOn [0x87] 3).cur.buf (cursorOn [0x87] 3).cur.pos
        (2 * Nat.log2 (6 + 1) + 1)) = 6 + 1 := by decide

/-- The two sides of `2^64 - 2`: the words of T-UE-big. -/
theorem witness_SignedGolombFollowsTheUnsigned :
    (after .rdue (cursorOn [0, 0, 0, 0, 0, 0, 0, 1, 255, 255, 255, 255, 255, 255, 255, 254] 0)).resp =
        some (shownNat (2 ^ 64 - 2)) ∧
      (after .rdue (cursorOn [0, 0, 0, 0, 0, 0, 0, 0, 128, 0, 0, 0, 0, 0, 0, 0, 0] 0)).resp =
        some (shownNat (2 ^ 64 - 1)) ∧
      (after .rdue (cursorOn [0] 0)).resp = some exhausted := by decide

theorem witness_SignedGolombDecodesTheCodeWord :
    (∀ j < 2, bitAt (cursorOn [0x07] 3).cur.buf ((cursorOn [0x07] 3).cur.pos + j) = 0) ∧
      bitAt (cursorOn [0x07] 3).cur.buf ((cursorOn [0x07] 3).cur.pos + 2) = 1 ∧
      (cursorOn [0x07] 3).cur.pos + 2 * 2 + 1 ≤ 8 * (cursorOn [0x07] 3).cur.buf.length ∧
      2 ^ 2 - 1 + assemble (bitsFrom [0x07] 6 2) ≤ 2 ^ 64 - 2 := by decide

theorem witness_ZigzagIsABijection : (0 : Int) < 1 ∧ (0 : Int) ≤ 0 ∧ 1 % 2 = 1 ∧ 0 % 2 = 0 := by decide

theorem witness_DecodeAfterEncodeIsTheIdentity :
    (Instr.create two).wf = true ∧ (Instr.create []).wf = true ∧ (Instr.rdbits 16777215).wf = true ∧
      (Instr.rdse).wf = true := by decide

theorem witness_EncodeAfterDecodeIsTheIdentity :
    decode ⟨0x02000002, two⟩ = .ok (.append two) ∧ decode ⟨0x0500000A, []⟩ = .ok (.rewind 10) := by decide

/-- A word a row selects with its payload, the same word with another payload, and a word no row selects. -/
theorem witness_WordsDecodeAsTheOpcodeMapSays :
    (∃ r ∈ opcodeRows, r.selects 0x01000001 = true ∧
      [(0xA7 : Byte)].length = if r.format = .p then operandField 0x01000001 else 0) ∧
      decode ⟨0x01000001, [0xA7]⟩ = .ok (.create [0xA7]) ∧
      (∀ r ∈ opcodeRows, r.selects 0x06000000 = false) ∧
      ∀ r ∈ opcodeRows, r.selects 0x03000001 = false := by decide

theorem witness_OpcodeGivesWidthAndSign :
    Instr.rdu8 ∈ [Instr.rdu8, .rdu16, .rdu32, .rdu64, .rdi8, .rdi16, .rdi32, .rdi64] ∧
      Instr.rdi64 ∈ [Instr.rdu8, .rdu16, .rdu32, .rdu64, .rdi8, .rdi16, .rdi32, .rdi64] := by decide

end Sys2Proof.Tests
end

section
/-! PROOFS. The family 10_state: what the commands do to the buffer and to `byo` (R20, R28). `exec_cursorMove` says once
what any command can do to the cursor; both statements are read off it. -/

namespace Sys2Proof.Machine

/-! The answers keep the cursor -/

@[simp] theorem State.answerNat_cur (n : Nat) (s : State) : (s.answerNat n).cur = s.cur :=
  (State.answerNat_frame n s).1

@[simp] theorem State.answerSigned_cur (v : Nat) (s : State) : (s.answerSigned v).cur = s.cur :=
  (State.answerSigned_frame v s).1

@[simp] theorem State.answerFlag_cur (b : Bool) (s : State) : (s.answerFlag b).cur = s.cur := rfl

@[simp] theorem State.answerInt_cur (z : Int) (s : State) : (s.answerInt z).cur = s.cur := rfl

/-! What a command can do to the cursor -/

theorem execCreate_next {p : List Byte} {s t : State} (h : execCreate p s = .next t) :
    s.hasRoom p.length = true ∧ t = State.answerNone { s with cur := BitCursor.over p } := by
  unfold execCreate at h
  split at h
  · cases h; exact ⟨‹_›, rfl⟩
  · cases h

theorem execAppend_next {p : List Byte} {s t : State} (h : execAppend p s = .next t) :
    s.hasRoom (s.cur.buf.length + p.length) = true ∧
      t = State.answerNone { s with cur := s.cur.extend p } := by
  unfold execAppend at h
  split at h
  · cases h; exact ⟨‹_›, rfl⟩
  · cases h

/-- A command that runs a forward-only procedure and answers without touching the cursor keeps the buffer and does not
move back, whether it succeeds or fails (00_scope R7: a raise undoes nothing). -/
theorem State.conclude_movesForward {α : Type} {s t : State} {r : Attempt α}
    {answer : α → State → State} (hr : r.MovesForward s.cur)
    (ha : ∀ a u, (answer a u).cur = u.cur) (h : s.conclude r answer = .next t) :
    t.cur.buf = s.cur.buf ∧ s.cur.pos ≤ t.cur.pos := by
  rcases State.conclude_cases h with ⟨a, c, rfl, rfl⟩ | ⟨e, c, rfl, rfl⟩
  · rw [ha]
    exact hr
  · exact hr.2

/-- What command `i` can make of the cursor `c`: the three reshapings, the two outcomes of REWIND, and for every other
command the same buffer at a bit index that has not fallen (10_state R20, R28; 40_cursor_and_buffer R89, R90). -/
inductive CursorMove (c : BitCursor) : Instr → BitCursor → Prop where
  | create (p : List Byte) : CursorMove c (.create p) (BitCursor.over p)
  | append (p : List Byte) : CursorMove c (.append p) (c.extend p)
  | trim : CursorMove c .trim c.trimmed
  | rewound (n : Nat) (hn : n ≤ c.pos) : CursorMove c (.rewind n) (c.moveTo (c.pos - n))
  | rewindFailed (n : Nat) (hn : c.pos < n) : CursorMove c (.rewind n) c
  | forward {i : Instr} {d : BitCursor} (hr : reshapes i = false) (hb : mayMoveBack i = false)
      (hd : d.buf = c.buf ∧ c.pos ≤ d.pos) : CursorMove c i d

/-- A forward-only procedure gives a forward move. -/
theorem CursorMove.of_conclude {α : Type} {i : Instr} {s t : State} {r : Attempt α}
    {answer : α → State → State} (hi : reshapes i = false) (hb : mayMoveBack i = false)
    (hr : r.MovesForward s.cur) (ha : ∀ a u, (answer a u).cur = u.cur)
    (h : s.conclude r answer = .next t) : CursorMove s.cur i t.cur :=
  .forward hi hb (State.conclude_movesForward hr ha h)

theorem execRewind_cursorMove {n : Nat} {s t : State} (h : execRewind n s = .next t) :
    CursorMove s.cur (.rewind n) t.cur := by
  unfold execRewind at h
  rcases s.cur.rewind_cases n with ⟨hn, hw⟩ | ⟨hn, hw⟩ <;> rw [hw] at h <;> cases h
  · exact .rewound n hn
  · exact .rewindFailed n hn

/-- Every command that answers moves the cursor as `CursorMove` says, failed commands included. -/
theorem exec_cursorMove {i : Instr} {s t : State} (h : exec i s = .next t) :
    CursorMove s.cur i t.cur := by
  cases i with
  | create p =>
    obtain ⟨-, rfl⟩ := execCreate_next h
    exact .create p
  | append p =>
    obtain ⟨-, rfl⟩ := execAppend_next h
    exact .append p
  | trim => cases h; exact .trim
  | rewind n => exact execRewind_cursorMove h
  | index =>
    cases h
    rw [State.answerNat_cur]
    exact .forward rfl rfl ⟨rfl, Nat.le_refl _⟩
  | rdbit => exact .of_conclude rfl rfl (readBit_movesForward _) State.answerNat_cur h
  | rdflag => exact .of_conclude rfl rfl (readBit_movesForward _) (fun _ u => u.answerFlag_cur _) h
  | rdbits n => exact .of_conclude rfl rfl (readBits_movesForward n _) State.answerNat_cur h
  | skip n => exact .of_conclude rfl rfl (readBits_movesForward n _) (fun _ => State.answerNone_cur) h
  | rdu8 => exact .of_conclude rfl rfl (readBits_movesForward 8 _) State.answerNat_cur h
  | rdu16 => exact .of_conclude rfl rfl (readBits_movesForward 16 _) State.answerNat_cur h
  | rdu32 => exact .of_conclude rfl rfl (readBits_movesForward 32 _) State.answerNat_cur h
  | rdu64 => exact .of_conclude rfl rfl (readBits_movesForward 64 _) State.answerNat_cur h
  | rdi8 => exact .of_conclude rfl rfl (readInt_movesForward 8 _) State.answerInt_cur h
  | rdi16 => exact .of_conclude rfl rfl (readInt_movesForward 16 _) State.answerInt_cur h
  | rdi32 => exact .of_conclude rfl rfl (readInt_movesForward 32 _) State.answerInt_cur h
  | rdi64 => exact .of_conclude rfl rfl (readInt_movesForward 64 _) State.answerInt_cur h
  | rdue => exact .of_conclude rfl rfl (readUE_movesForward _) State.answerNat_cur h
  | rdse => exact .of_conclude rfl rfl (readUE_movesForward _) State.answerSigned_cur h

/-! The cursor moves command by command -/

theorem CursorMove.eq_over {c d : BitCursor} {p : List Byte} (h : CursorMove c (.create p) d) :
    d = BitCursor.over p := by
  cases h with
  | create => rfl
  | forward hr => cases hr

theorem CursorMove.eq_extend {c d : BitCursor} {p : List Byte} (h : CursorMove c (.append p) d) :
    d = c.extend p := by
  cases h with
  | append => rfl
  | forward hr => cases hr

theorem CursorMove.eq_trimmed {c d : BitCursor} (h : CursorMove c .trim d) : d = c.trimmed := by
  cases h with
  | trim => rfl
  | forward hr => cases hr

theorem CursorMove.buf_eq {c d : BitCursor} {i : Instr} (h : CursorMove c i d)
    (hi : reshapes i = false) : d.buf = c.buf := by
  cases h with
  | create | append | trim => cases hi
  | rewound | rewindFailed => rfl
  | forward _ _ hd => exact hd.1

theorem CursorMove.byo_le {c d : BitCursor} {i : Instr} (h : CursorMove c i d)
    (hi : mayMoveBack i = false) : c.byo ≤ d.byo := by
  cases h with
  | create | trim | rewound | rewindFailed => cases hi
  | append => exact Nat.le_refl _
  | forward _ _ hd =>
    rw [← c.pos_div, ← d.pos_div]
    exact Nat.div_le_div_right hd.2

/-- Settles O9: each clause is the buffer of the cursor move. -/
theorem bufferChangesOnlyByCreateAppendTrim : Obligations.BufferChangesOnlyByCreateAppendTrim := by
  unfold Obligations.BufferChangesOnlyByCreateAppendTrim
  intro i s t h
  have hm : CursorMove s.cur i t.cur := exec_cursorMove h
  refine ⟨?_, ?_, ?_, hm.buf_eq⟩
  · rintro p rfl
    rw [hm.eq_over, BitCursor.over_buf]
  · rintro p rfl
    rw [hm.eq_extend, BitCursor.extend_buf]
  · rintro rfl
    rw [hm.eq_trimmed, BitCursor.trimmed_buf]

/-- Settles O10: `byo` is `pos div 8`, and outside the commands named the bit index does not fall. -/
theorem byteOffsetFallsOnlyByRewindTrimCreate :
    Obligations.ByteOffsetFallsOnlyByRewindTrimCreate := by
  unfold Obligations.ByteOffsetFallsOnlyByRewindTrimCreate
  intro i s t h
  have hm : CursorMove s.cur i t.cur := exec_cursorMove h
  refine ⟨hm.byo_le, ?_, ?_⟩
  · rintro rfl
    rw [hm.eq_trimmed, BitCursor.trimmed_byo]
  · rintro p rfl
    rw [hm.eq_over, BitCursor.over_byo]

end Sys2Proof.Machine
end

section
/-! PROOFS. The family 40_cursor_and_buffer: what CREATE, APPEND, TRIM, INDEX and REWIND answer, the capacity, and the
empty unit. The equations say once, per command, the whole next state; the statements are assembled from them. -/

namespace Sys2Proof.Machine

/-! The capacity (R84) -/

theorem State.hasRoom_of_finite {s : State} {cap : Nat} (h : s.cfg.bufCap = some cap) (len : Nat) :
    s.hasRoom len = true ↔ len ≤ cap := by
  simp only [State.hasRoom, h, decide_eq_true_eq]

theorem State.hasRoom_of_unbounded {s : State} (h : s.cfg.bufCap = none) (len : Nat) :
    s.hasRoom len = true := by
  simp only [State.hasRoom, h]

theorem State.hasRoom_zero (s : State) : s.hasRoom 0 = true := by
  cases h : s.cfg.bufCap with
  | none => exact State.hasRoom_of_unbounded h 0
  | some cap => exact (State.hasRoom_of_finite h 0).mpr (Nat.zero_le cap)

/-! CREATE and APPEND (R80, R82, R84) -/

theorem exec_create_of_hasRoom {s : State} {p : List Byte} (h : s.hasRoom p.length = true) :
    exec (.create p) s = .next { s with cur := BitCursor.over p, resp := some plainOk } := if_pos h

theorem exec_append_of_hasRoom {s : State} {p : List Byte}
    (h : s.hasRoom (s.cur.buf.length + p.length) = true) :
    exec (.append p) s = .next { s with cur := s.cur.extend p, resp := some plainOk } := if_pos h

theorem exec_create_refused_iff (s : State) (p : List Byte) :
    exec (.create p) s = .refused .overCapacity ↔ ¬ s.hasRoom p.length = true := by
  refine ⟨fun h hroom => ?_, fun h => if_neg h⟩
  rw [exec_create_of_hasRoom hroom] at h
  cases h

theorem exec_append_refused_iff (s : State) (p : List Byte) :
    exec (.append p) s = .refused .overCapacity ↔
      ¬ s.hasRoom (s.cur.buf.length + p.length) = true := by
  refine ⟨fun h hroom => ?_, fun h => if_neg h⟩
  rw [exec_append_of_hasRoom hroom] at h
  cases h

/-! TRIM, INDEX and REWIND (R85, R88, R89, R90) -/

theorem exec_trim (s : State) :
    exec .trim s = .next { s with cur := s.cur.trimmed, resp := some plainOk } := rfl

theorem exec_index (s : State) : exec .index s = .next (s.answerNat s.cur.pos) := rfl

theorem exec_index_of_lt {s : State} (h : s.cur.pos < 2 ^ 64) :
    exec .index s = .next { s with resp := some (shownNat s.cur.pos) } := by
  rw [exec_index, State.answerNat_of_lt h]
  rfl

theorem exec_rewind_of_le {s : State} {n : Nat} (h : n ≤ s.cur.pos) :
    exec (.rewind n) s =
      .next { s with cur := s.cur.moveTo (s.cur.pos - n), resp := some plainOk } := by
  have hr : s.cur.rewind n = .done () (s.cur.moveTo (s.cur.pos - n)) := if_neg (Nat.not_lt.mpr h)
  rw [exec, execRewind, hr]
  rfl

theorem exec_rewind_of_lt {s : State} {n : Nat} (h : s.cur.pos < n) :
    exec (.rewind n) s =
      .next { s with resp := some { status := .invalidRewind, result := none, value := none } } := by
  have hr : s.cur.rewind n = .raised .invalidRewind s.cur := if_pos h
  rw [exec, execRewind, hr]
  rfl

theorem BitCursor.pos_trimmed (c : BitCursor) : c.trimmed.pos + 8 * c.byo = c.pos := by
  simp only [BitCursor.pos, BitCursor.trimmed_byo, BitCursor.trimmed_bio]
  omega

/-- One backward step of the walk takes `pos` to `pos - 1`, borrowing from `byo` at 0. -/
theorem BitCursor.stepBack_eq {c : BitCursor} (h : 0 < c.pos) :
    c.stepBack = c.moveTo (c.pos - 1) := by
  refine BitCursor.ext_pos ?_ ?_ <;> rw [BitCursor.stepBack]
  · split <;> rfl
  · rw [BitCursor.pos_moveTo]
    have hlt := c.bio.isLt
    split <;> simp only [BitCursor.pos] at h ⊢
    · show 8 * (c.byo - 1) + 7 = _
      omega
    · omega

/-- `n` backward steps are the subtraction of R89. -/
theorem BitCursor.walkBack_eq {n : Nat} {c : BitCursor} (h : n ≤ c.pos) :
    c.walkBack n = c.moveTo (c.pos - n) := by
  induction n generalizing c with
  | zero => exact c.moveTo_pos.symm
  | succ n ih =>
    rw [BitCursor.walkBack, BitCursor.stepBack_eq (by omega),
      ih (by rw [BitCursor.pos_moveTo]; omega), BitCursor.pos_moveTo, BitCursor.moveTo_moveTo,
      Nat.sub_sub, Nat.add_comm 1 n]

/-! Reads: the single bit, the reads of no bit, the reads that run out -/

/-- Bit 0 of a buffer is the top bit of its first byte (20_memory R41). -/
theorem bitAt_cons_zero (b : Byte) (rest : List Byte) : bitAt (b :: rest) 0 = b.toNat / 2 ^ 7 := by
  have := b.isLt
  show b.toNat / 2 ^ 7 % 2 = b.toNat / 2 ^ 7
  omega

theorem exec_rdbit_of_lt {s : State} (h : s.cur.pos < 8 * s.cur.buf.length) :
    exec .rdbit s =
      .next { s with
              cur := s.cur.moveTo (s.cur.pos + 1)
              resp := some (shownNat (bitAt s.cur.buf s.cur.pos)) } := by
  have hbit : bitAt s.cur.buf s.cur.pos < 2 ^ 64 :=
    Nat.lt_trans (bitAt_lt_two _ _) (by decide)
  rw [exec, execRdbit, readBit_of_lt h, State.conclude, State.answerNat_of_lt hbit]
  rfl

theorem exec_rdbits_zero (s : State) :
    exec (.rdbits 0) s = .next { s with resp := some (shownNat 0) } := rfl

theorem exec_skip_zero (s : State) : exec (.skip 0) s = .next { s with resp := some plainOk } := rfl

theorem exec_rewind_zero (s : State) :
    exec (.rewind 0) s = .next { s with resp := some plainOk } := by
  rw [exec_rewind_of_le (Nat.zero_le _), Nat.sub_zero, BitCursor.moveTo_pos]

theorem readBits_one (c : BitCursor) : readBits 1 c = readBit c := by
  rcases readBit_cases c with ⟨-, h⟩ | ⟨-, h⟩ <;>
    simp only [readBits, readBitsFrom, h, Attempt.andThen, Nat.zero_mul, Nat.zero_add]

/-- A command of fixed length fails as its ReadBits does: the error is delivered over the cursor reached. -/
theorem exec_of_readBits_raised {i : Instr} {n : Nat} {s : State} {e : ErrorKind} {c : BitCursor}
    (hi : bitCount i = some n) (h : readBits n s.cur = .raised e c) :
    exec i s = .next (State.deliver e { s with cur := c }) := by
  cases i with
  | create | append | trim | index | rewind | rdue | rdse => cases hi
  | rdbit | rdflag =>
    cases hi
    rw [readBits_one] at h
    simp only [exec, execRdbit, execRdflag, h, State.conclude]
  | rdbits | skip =>
    cases hi
    simp only [exec, execRdbits, execSkip, h, State.conclude]
  | rdu8 | rdu16 | rdu32 | rdu64 =>
    cases hi
    simp only [exec, execRdu8, execRdu16, execRdu32, execRdu64, readUint, h, State.conclude]
  | rdi8 | rdi16 | rdi32 | rdi64 =>
    cases hi
    simp only [exec, execRdi8, execRdi16, execRdi32, execRdi64, readInt, h, Attempt.andThen,
      State.conclude]

/-- RDUE and RDSE fail as ReadUE does. -/
theorem exec_of_readUE_raised {i : Instr} {s : State} {e : ErrorKind} {c : BitCursor}
    (hi : i ∈ [Instr.rdue, .rdse]) (h : readUE s.cur = .raised e c) :
    exec i s = .next (State.deliver e { s with cur := c }) := by
  simp only [List.mem_cons, List.not_mem_nil, or_false] at hi
  rcases hi with rfl | rfl <;> simp only [exec, execRdue, execRdse, h, State.conclude]

/-! The empty unit (R81): the cursor of reset -/

section Empty
variable {t : State} (ht : t.cur = BitCursor.reset)
include ht

theorem deliver_exhausted_of_reset :
    State.deliver .bufferExhausted { t with cur := BitCursor.reset } =
      { t with resp := some exhausted } := by
  rw [← ht]
  rfl

theorem exec_fixedRead_of_reset {i : Instr} {n : Nat} (hi : bitCount i = some n) (hn : 0 < n) :
    exec i t = .next { t with resp := some exhausted } := by
  have hr : readBits n t.cur = .raised .bufferExhausted BitCursor.reset := by
    rw [ht]
    exact readBits_of_gt (Nat.le_refl 0) (Nat.add_pos_right 0 hn)
  rw [exec_of_readBits_raised hi hr, deliver_exhausted_of_reset ht]

theorem exec_golomb_of_reset {i : Instr} (hi : i ∈ [Instr.rdue, .rdse]) :
    exec i t = .next { t with resp := some exhausted } := by
  have hr : readUE t.cur = .raised .bufferExhausted BitCursor.reset := by
    rw [ht]
    rfl
  rw [exec_of_readUE_raised hi hr, deliver_exhausted_of_reset ht]

theorem exec_trim_of_reset : exec .trim t = .next { t with resp := some plainOk } := by
  rw [exec_trim, show t.cur.trimmed = t.cur by rw [ht]; rfl]

theorem exec_index_of_reset : exec .index t = .next { t with resp := some (shownNat 0) } := by
  have hp : t.cur.pos = 0 := by rw [ht]; rfl
  rw [exec_index_of_lt (by rw [hp]; decide), hp]

theorem exec_append_of_reset {p : List Byte} (h : t.hasRoom p.length = true) :
    exec (.append p) t = .next { t with cur := BitCursor.over p, resp := some plainOk } := by
  rw [exec_append_of_hasRoom (by rwa [ht, show BitCursor.reset.buf.length = 0 from rfl,
    Nat.zero_add]), ht]
  rfl

/-- APPEND makes the empty unit readable: RDBIT returns the first bit appended. -/
theorem exec_append_rdbit_of_reset {b : Byte} {rest : List Byte}
    (h : t.hasRoom (b :: rest).length = true) :
    ∃ u v, exec (.append (b :: rest)) t = .next u ∧ exec .rdbit u = .next v ∧
      v.resp = some (shownNat (b.toNat / 2 ^ 7)) := by
  have hlt : (BitCursor.over (b :: rest)).pos < 8 * (b :: rest).length :=
    Nat.mul_pos (by decide) (Nat.succ_pos rest.length)
  refine ⟨_, _, exec_append_of_reset ht h, exec_rdbit_of_lt hlt, ?_⟩
  rw [← bitAt_cons_zero b rest]
  rfl

end Empty

/-! The statements -/

/-- Settles O18: CREATE over `[]` leaves the cursor of reset, and the clauses are what each command does there. -/
theorem emptyCreateFailsEveryReadUntilAppend :
    Obligations.EmptyCreateFailsEveryReadUntilAppend := by
  unfold Obligations.EmptyCreateFailsEveryReadUntilAppend
  intro s
  refine ⟨_, exec_create_of_hasRoom s.hasRoom_zero, rfl, rfl,
    fun i n => exec_fixedRead_of_reset rfl, fun i => exec_golomb_of_reset rfl,
    exec_rdbits_zero _, ?_, exec_index_of_reset rfl, ?_⟩
  · intro i hi
    simp only [List.mem_cons, List.not_mem_nil, or_false] at hi
    rcases hi with rfl | rfl | rfl
    · exact exec_skip_zero _
    · exact exec_rewind_zero _
    · exact exec_trim_of_reset rfl
  · intro b rest hroom
    exact exec_append_rdbit_of_reset rfl hroom

/-- Settles O25: the subtraction is the walk, and a failed test moves nothing. -/
theorem rewindMovesBackOrFailsUnmoved : Obligations.RewindMovesBackOrFailsUnmoved := by
  unfold Obligations.RewindMovesBackOrFailsUnmoved
  intro s n
  refine ⟨fun hn => ?_, exec_rewind_of_lt⟩
  exact ⟨_, exec_rewind_of_le hn, rfl, rfl, rfl, (BitCursor.walkBack_eq hn).symm, rfl⟩

/-- Settles O17: it is the equation of CREATE where BUF_CAP has room. -/
theorem createStartsANewCursor : Obligations.CreateStartsANewCursor := by
  unfold Obligations.CreateStartsANewCursor
  exact fun _ _ => exec_create_of_hasRoom

/-- Settles O19: old and new bytes are the two halves of an append, and a position short of the new end is readable. -/
theorem appendExtendsTheBufferAndKeepsThePosition :
    Obligations.AppendExtendsTheBufferAndKeepsThePosition := by
  unfold Obligations.AppendExtendsTheBufferAndKeepsThePosition
  intro s p hroom
  refine ⟨_, exec_append_of_hasRoom hroom, rfl, List.length_append, rfl, fun a ha => ?_,
    fun k => ?_, fun hpos => ?_⟩
  · exact List.getElem?_append_left ha
  · simp only [memRead, BitCursor.extend_buf, List.getElem?_append_right (Nat.le_add_right _ k),
      Nat.add_sub_cancel_left]
  · rw [← List.length_append] at hpos
    exact ⟨_, _, exec_rdbit_of_lt hpos, rfl, rfl⟩

/-- Settles O20: a refusal is a buffer that has no room, on both sides of the capacity. -/
theorem capacityOverrunIsRefused : Obligations.CapacityOverrunIsRefused := by
  unfold Obligations.CapacityOverrunIsRefused
  refine ⟨fun s p cap hcap => ⟨?_, ?_⟩, fun s p hcap => ⟨?_, ?_⟩⟩
  · rw [exec_create_refused_iff, State.hasRoom_of_finite hcap, Nat.not_le]
  · rw [exec_append_refused_iff, State.hasRoom_of_finite hcap, Nat.not_le]
  · exact ⟨_, exec_create_of_hasRoom (State.hasRoom_of_unbounded hcap _)⟩
  · exact ⟨_, exec_append_of_hasRoom (State.hasRoom_of_unbounded hcap _)⟩

/-- Settles O21: the bytes and the length are those of `List.drop`. -/
theorem trimDropsTheBytesBeforeTheCursor : Obligations.TrimDropsTheBytesBeforeTheCursor := by
  unfold Obligations.TrimDropsTheBytesBeforeTheCursor
  exact fun s => ⟨exec_trim s, fun a => List.getElem?_drop, List.length_drop⟩

/-- Settles O23: the answer touches no state, shown below 2^64 and a free draw from there on; TRIM and CREATE move the
position as their cursors say. -/
theorem indexReturnsThePosition : Obligations.IndexReturnsThePosition := by
  unfold Obligations.IndexReturnsThePosition
  intro s
  obtain ⟨hcur, hport, hcfg⟩ := State.answerNat_frame s.cur.pos s
  refine ⟨_, exec_index s, hcur, hport, hcfg, fun hlt => ?_, fun hge => ?_, fun u hu => ?_,
    fun p u hu => ?_⟩
  · rw [State.answerNat_of_lt hlt]
    rfl
  · obtain ⟨hlt, -⟩ | ⟨-, hfree⟩ := State.answerNat_cases s.cur.pos s
    · exact absurd hlt (Nat.not_lt.mpr hge)
    · exact ⟨_, by rw [hfree, State.answerFree_resp]; rfl⟩
  · cases hu
    exact s.cur.pos_trimmed
  · obtain ⟨-, rfl⟩ := execCreate_next hu
    rfl

end Sys2Proof.Machine
end

section
/-! PROOFS. The family 41_bit_extraction: the reads of a fixed number of bits. What a read answers with the bits there
and without them is said once, over `bitCount`; the numbers read are `assemble` of the bits in read order. -/

namespace Sys2Proof.Machine

/-! The bits and the numbers they spell (20_memory R41, R106) -/

/-- A bit of an extension, counted from the old end, is a bit of the bytes appended. -/
theorem bitAt_append_right (buf p : List Byte) (q : Nat) :
    bitAt (buf ++ p) (8 * buf.length + q) = bitAt p q := by
  have hdiv : (8 * buf.length + q) / 8 = buf.length + q / 8 := by omega
  have hmod : (8 * buf.length + q) % 8 = q % 8 := by omega
  simp only [bitAt, memRead, hdiv, hmod, List.getElem?_append_right (Nat.le_add_right _ _),
    Nat.add_sub_cancel_left]

/-- Bit `j` of the byte at address `k`, counted from its most significant bit. -/
theorem bitAt_of_memRead {buf : List Byte} {k j : Nat} {b : Byte} (h : memRead buf k = some b)
    (hj : j < 8) : bitAt buf (8 * k + j) = b.toNat / 2 ^ (7 - j) % 2 := by
  have hdiv : (8 * k + j) / 8 = k := by omega
  have hmod : (8 * k + j) % 8 = j := by omega
  simp only [bitAt, hdiv, hmod, h]

theorem lt_length_of_memRead {buf : List Byte} {a : Nat} {b : Byte} (h : memRead buf a = some b) :
    a < buf.length := (List.getElem?_eq_some_iff.mp h).1

theorem assemble_bitsFrom_succ (buf : List Byte) (p n : Nat) :
    assemble (bitsFrom buf p (n + 1)) = assemble (bitsFrom buf p n) * 2 + bitAt buf (p + n) := by
  simp only [assemble, bitsFrom, List.range_succ, List.map_append, List.map_cons, List.map_nil,
    List.foldl_append, List.foldl_cons, List.foldl_nil]

theorem assemble_bitsFrom_lt (buf : List Byte) (p n : Nat) :
    assemble (bitsFrom buf p n) < 2 ^ n := by
  induction n with
  | zero => exact Nat.one_pos
  | succ n ih =>
    have hbit := bitAt_lt_two buf (p + n)
    rw [assemble_bitsFrom_succ, Nat.pow_succ]
    omega

/-- Two adjacent fields are the high and the low part of the one wide field (20_memory R56). -/
theorem assemble_bitsFrom_add (buf : List Byte) (p m n : Nat) :
    assemble (bitsFrom buf p (m + n)) =
      assemble (bitsFrom buf p m) * 2 ^ n + assemble (bitsFrom buf (p + m) n) := by
  induction n with
  | zero => exact (Nat.mul_one _).symm
  | succ n ih =>
    rw [← Nat.add_assoc, assemble_bitsFrom_succ, assemble_bitsFrom_succ, ih, ← Nat.add_assoc p m n]
    ring

/-- The first `n` bits of a byte are its `n` most significant ones. -/
theorem assemble_bitsFrom_of_memRead {buf : List Byte} {k : Nat} {b : Byte}
    (h : memRead buf k = some b) {n : Nat} (hn : n ≤ 8) :
    assemble (bitsFrom buf (8 * k) n) = b.toNat / 2 ^ (8 - n) := by
  induction n with
  | zero => exact (Nat.div_eq_of_lt b.isLt).symm
  | succ n ih =>
    have hpow : b.toNat / 2 ^ (8 - n) = b.toNat / 2 ^ (7 - n) / 2 := by
      rw [show 8 - n = 7 - n + 1 by omega, Nat.pow_succ, Nat.div_div_eq_div_mul]
    rw [assemble_bitsFrom_succ, ih (by omega), bitAt_of_memRead h (by omega), hpow,
      show 8 - (n + 1) = 7 - n by omega]
    omega

/-- The eight bits of a byte spell the byte. -/
theorem assemble_bitsFrom_byte {buf : List Byte} {k : Nat} {b : Byte} (h : memRead buf k = some b) :
    assemble (bitsFrom buf (8 * k) 8) = b.toNat := by
  rw [assemble_bitsFrom_of_memRead h (Nat.le_refl 8), Nat.sub_self, Nat.pow_zero, Nat.div_one]

/-! ReadBits(n) in every state -/

/-- A read that returns has moved by its count, wherever the cursor was. -/
theorem readBitsFrom_moveTo_of_done {n acc a : Nat} {c d : BitCursor}
    (h : readBitsFrom n acc c = .done a d) : d = c.moveTo (c.pos + n) := by
  induction n generalizing acc c with
  | zero =>
    cases h
    exact (BitCursor.moveTo_pos _).symm
  | succ n ih =>
    obtain ⟨-, hr⟩ | ⟨-, hr⟩ := readBit_cases c <;> rw [readBitsFrom, hr] at h
    · rw [ih h, BitCursor.pos_moveTo, BitCursor.moveTo_moveTo, Nat.add_assoc, Nat.add_comm 1 n]
    · cases h

/-! Commands of a fixed length: success (R100 to R121) -/

theorem State.answerNat_ok (n : Nat) (s : State) :
    ∃ r, (s.answerNat n).resp = some r ∧ r.status = .ok := by
  obtain ⟨-, h⟩ | ⟨-, h⟩ := State.answerNat_cases n s <;> rw [h] <;> exact ⟨_, rfl, rfl⟩

/-- A signed read answers the signed reading of the bits, over the cursor ReadBits reached. -/
theorem State.conclude_readInt_of_done {s : State} {w u : Nat} {c : BitCursor}
    (h : readBits w s.cur = .done u c) :
    s.conclude (readInt w s.cur) State.answerInt =
      .next (State.answerInt (signedOf w u) { s with cur := c }) := by
  rw [readInt, h]
  rfl

/-- A command of fixed length succeeds as its ReadBits does, over the cursor reached. -/
theorem exec_of_readBits_done {i : Instr} {n a : Nat} {s : State} {c : BitCursor}
    (hi : bitCount i = some n) (h : readBits n s.cur = .done a c) :
    ∃ t r, exec i s = .next t ∧ t.cur = c ∧ t.resp = some r ∧ r.status = .ok := by
  cases i with
  | create | append | trim | index | rewind | rdue | rdse => cases hi
  | rdbit =>
    cases hi
    rw [readBits_one] at h
    obtain ⟨r, hr, hok⟩ := State.answerNat_ok a { s with cur := c }
    exact ⟨_, r, by rw [exec, execRdbit, h, State.conclude], State.answerNat_cur a _, hr, hok⟩
  | rdflag =>
    cases hi
    rw [readBits_one] at h
    exact ⟨_, _, by rw [exec, execRdflag, h, State.conclude], rfl, rfl, rfl⟩
  | skip =>
    cases hi
    exact ⟨_, _, by rw [exec, execSkip, h, State.conclude], rfl, rfl, rfl⟩
  | rdbits | rdu8 | rdu16 | rdu32 | rdu64 =>
    cases hi
    obtain ⟨r, hr, hok⟩ := State.answerNat_ok a { s with cur := c }
    refine ⟨_, r, ?_, State.answerNat_cur a _, hr, hok⟩
    simp only [exec, execRdbits, execRdu8, execRdu16, execRdu32, execRdu64, readUint, h,
      State.conclude]
  | rdi8 | rdi16 | rdi32 | rdi64 =>
    cases hi
    exact ⟨_, _, State.conclude_readInt_of_done h, rfl, rfl, rfl⟩

/-- With its bits left, a command of fixed length succeeds and moves by its count. -/
theorem exec_fixedRead_of_le {i : Instr} {n : Nat} {s : State} (hi : bitCount i = some n)
    (h : s.cur.pos + n ≤ 8 * s.cur.buf.length) :
    ∃ t r, exec i s = .next t ∧ t.cur = s.cur.moveTo (s.cur.pos + n) ∧ t.resp = some r ∧
      r.status = .ok :=
  exec_of_readBits_done hi (readBits_of_le h)

/-- With fewer bits left, it fails at the end of the buffer (R110). -/
theorem exec_fixedRead_of_gt {i : Instr} {n : Nat} {s : State} (hi : bitCount i = some n)
    (hinv : s.cur.Inv) (h : 8 * s.cur.buf.length < s.cur.pos + n) :
    exec i s = .next { s with cur := s.cur.moveTo (8 * s.cur.buf.length), resp := some exhausted } :=
  exec_of_readBits_raised hi (readBits_of_gt hinv h)

/-- At or past the end, a command of one bit fails and changes nothing else (R102). -/
theorem exec_oneBitRead_of_ge {i : Instr} {s : State} (hi : bitCount i = some 1)
    (h : 8 * s.cur.buf.length ≤ s.cur.pos) :
    exec i s = .next { s with resp := some exhausted } :=
  exec_of_readBits_raised hi ((readBits_one s.cur).trans (readBit_of_ge h))

theorem BitCursor.inv_moveTo_min (c : BitCursor) (p : Nat) :
    (c.moveTo (min p (8 * c.buf.length))).Inv := by
  rw [BitCursor.Inv, BitCursor.pos_moveTo, BitCursor.moveTo_buf]
  exact Nat.min_le_right _ _

/-- Whether or not its bits are left, it answers, and moves by its count or to the end of the buffer. -/
theorem exec_fixedRead_moveTo_min {i : Instr} {n : Nat} {s : State} (hi : bitCount i = some n)
    (hinv : s.cur.Inv) :
    ∃ t r, exec i s = .next t ∧ t.resp = some r ∧
      t.cur = s.cur.moveTo (min (s.cur.pos + n) (8 * s.cur.buf.length)) := by
  rcases Nat.lt_or_ge (8 * s.cur.buf.length) (s.cur.pos + n) with hgt | hle
  · rw [Nat.min_eq_right hgt.le]
    exact ⟨_, _, exec_fixedRead_of_gt hi hinv hgt, rfl, rfl⟩
  · obtain ⟨t, r, ht, hcur, hr, -⟩ := exec_fixedRead_of_le hi hle
    rw [Nat.min_eq_left hle]
    exact ⟨t, r, ht, hr, hcur⟩

theorem ErrorKind.status_ne_ok (e : ErrorKind) : e.status ≠ .ok := by cases e <;> decide

/-- A successful command of fixed length has moved by its count, wherever the cursor was (R123). -/
theorem exec_fixedRead_moveTo_of_ok {i : Instr} {n : Nat} {s t : State} {r : Response}
    (hi : bitCount i = some n) (ht : exec i s = .next t) (hr : t.resp = some r)
    (hok : r.status = .ok) : t.cur = s.cur.moveTo (s.cur.pos + n) := by
  cases hread : readBits n s.cur with
  | done a c =>
    obtain ⟨u, -, hu, hcur, -⟩ := exec_of_readBits_done hi hread
    obtain rfl : u = t := Host.Outcome.next.inj (hu.symm.trans ht)
    rw [hcur, readBitsFrom_moveTo_of_done hread]
  | raised e c =>
    rw [exec_of_readBits_raised hi hread] at ht
    cases ht
    cases hr
    exact absurd hok e.status_ne_ok

/-! Command lists -/

theorem runAll_cons {i : Instr} {is : List Instr} {s t u : State} {r : Response}
    {rs : List Response} (ht : exec i s = .next t) (hr : t.resp = some r)
    (hrest : runAll is t = some (rs, u)) : runAll (i :: is) s = some (r :: rs, u) := by
  simp only [runAll, ht, hr, hrest]

/-- A list of commands of fixed length moves by the sum of the counts, or to the end of the buffer. -/
theorem runAll_fixedReads {is : List Instr} {ns : List Nat} {s : State}
    (his : List.Forall₂ (fun i n => bitCount i = some n) is ns) (hinv : s.cur.Inv) :
    ∃ rs t, runAll is s = some (rs, t) ∧
      t.cur = s.cur.moveTo (min (s.cur.pos + ns.sum) (8 * s.cur.buf.length)) := by
  induction his generalizing s with
  | nil =>
    refine ⟨[], s, rfl, ?_⟩
    rw [List.sum_nil, Nat.add_zero, Nat.min_eq_left hinv, s.cur.moveTo_pos]
  | @cons i n is ns hi _ ih =>
    obtain ⟨t, r, ht, hr, hcur⟩ := exec_fixedRead_moveTo_min hi hinv
    have hinv' : t.cur.Inv := by
      rw [hcur]
      exact s.cur.inv_moveTo_min _
    obtain ⟨rs, u, hrun, hcur'⟩ := ih hinv'
    refine ⟨r :: rs, u, runAll_cons ht hr hrun, ?_⟩
    rw [hcur', hcur, BitCursor.pos_moveTo, BitCursor.moveTo_buf, BitCursor.moveTo_moveTo,
      List.sum_cons]
    congr 1
    omega

/-! RDBIT and RDFLAG (R100 to R103) -/

/-- One bit forward stays in the byte, or carries from its last bit into the next byte (R104). -/
theorem BitCursor.advance_eq_ite (c : BitCursor) :
    c.advance = if c.bio = 7 then { c with byo := c.byo + 1, bio := 0 }
      else { c with bio := c.bio + 1 } := by
  rw [BitCursor.advance]
  by_cases h : c.bio.val + 1 < 8
  · have hne : c.bio ≠ 7 := by rintro heq; rw [heq] at h; exact absurd h (by decide)
    have hsucc : c.bio + 1 = ⟨c.bio.val + 1, h⟩ := Fin.ext (Nat.mod_eq_of_lt h)
    rw [dif_pos h, if_neg hne, hsucc]
  · have heq : c.bio = 7 := Fin.ext (by show c.bio.val = 7; omega)
    rw [dif_neg h, if_pos heq]

theorem exec_rdflag_of_lt {s : State} (h : s.cur.pos < 8 * s.cur.buf.length) :
    exec .rdflag s =
      .next (State.answerFlag (bitAt s.cur.buf s.cur.pos == 1)
        { s with cur := s.cur.moveTo (s.cur.pos + 1) }) := by
  rw [exec, execRdflag, readBit_of_lt h, State.conclude]

/-! RDBITS, SKIP and the fixed widths (R107, R112 to R121) -/

/-- RDBITS of at most 64 bits shows the number it read. -/
theorem exec_rdbits_of_le {n : Nat} {s : State} (h : s.cur.pos + n ≤ 8 * s.cur.buf.length)
    (hn : n ≤ 64) :
    exec (.rdbits n) s = .next { s with
      cur := s.cur.moveTo (s.cur.pos + n)
      resp := some (shownNat (assemble (bitsFrom s.cur.buf s.cur.pos n))) } := by
  have hfits : assemble (bitsFrom s.cur.buf s.cur.pos n) < 2 ^ 64 :=
    (assemble_bitsFrom_lt _ _ n).trans_le (Nat.pow_le_pow_right (by decide) hn)
  rw [exec, execRdbits, readBits_of_le h, State.conclude, State.answerNat_of_lt hfits]
  rfl

theorem exec_skip_of_le {n : Nat} {s : State} (h : s.cur.pos + n ≤ 8 * s.cur.buf.length) :
    exec (.skip n) s =
      .next { s with cur := s.cur.moveTo (s.cur.pos + n), resp := some plainOk } := by
  rw [exec, execSkip, readBits_of_le h]
  rfl

/-- The unsigned reads with their widths (R112 to R115). -/
def unsignedReads : List (Instr × Nat) := [(.rdu8, 8), (.rdu16, 16), (.rdu32, 32), (.rdu64, 64)]

/-- The signed reads with their widths (R116 to R119). -/
def signedReads : List (Instr × Nat) := [(.rdi8, 8), (.rdi16, 16), (.rdi32, 32), (.rdi64, 64)]

theorem exec_unsignedRead {iw : Instr × Nat} (h : iw ∈ unsignedReads) (s : State) :
    exec iw.1 s = exec (.rdbits iw.2) s := by
  simp only [unsignedReads, List.mem_cons, List.not_mem_nil, or_false] at h
  obtain rfl | rfl | rfl | rfl := h <;> rfl

theorem width_le_of_unsignedRead : ∀ iw ∈ unsignedReads, iw.2 ≤ 64 := by decide

theorem bitCount_signedRead : ∀ iw ∈ signedReads, bitCount iw.1 = some iw.2 := by decide

theorem width_pos_of_signedRead : ∀ iw ∈ signedReads, 0 < iw.2 := by decide

theorem exec_signedRead_of_le {iw : Instr × Nat} (hiw : iw ∈ signedReads) {s : State}
    (h : s.cur.pos + iw.2 ≤ 8 * s.cur.buf.length) :
    exec iw.1 s = .next
      (State.answerInt (signedOf iw.2 (assemble (bitsFrom s.cur.buf s.cur.pos iw.2)))
        { s with cur := s.cur.moveTo (s.cur.pos + iw.2) }) := by
  have hdone := State.conclude_readInt_of_done (readBits_of_le h)
  simp only [signedReads, List.mem_cons, List.not_mem_nil, or_false] at hiw
  obtain rfl | rfl | rfl | rfl := hiw <;> exact hdone

/-- The two's-complement reading of a pattern is the integer its bit vector stands for (R120). -/
theorem signedOf_eq_toInt {w u : Nat} (hw : 0 < w) (hu : u < 2 ^ w) :
    signedOf w u = (BitVec.ofNat w u).toInt := by
  have hpow : 2 ^ w = 2 * 2 ^ (w - 1) := (mul_pow_sub_one hw.ne' 2).symm
  rw [signedOf, BitVec.toInt_eq_toNat_cond, BitVec.toNat_ofNat, Nat.mod_eq_of_lt hu]
  by_cases h : u < 2 ^ (w - 1)
  · rw [if_pos h, if_pos (by omega)]
  · rw [if_neg h, if_neg (by omega), Nat.cast_pow, Nat.cast_ofNat]

/-- The range of the two's-complement reading (R116 to R119). -/
theorem signedOf_range {w u : Nat} (hw : 0 < w) (hu : u < 2 ^ w) :
    -(2 ^ (w - 1)) ≤ signedOf w u ∧ signedOf w u < 2 ^ (w - 1) := by
  rw [signedOf_eq_toInt hw hu]
  exact ⟨BitVec.le_toInt _, BitVec.toInt_lt⟩

/-- Byte reads from a byte boundary give the bytes from there to the end, in order (R124). -/
theorem runAll_byteReads {i : Instr} (hi : ∀ s, exec i s = exec (.rdbits 8) s) (pre p : List Byte)
    {s : State} (hbuf : s.cur.buf = pre ++ p) (hpos : s.cur.pos = 8 * pre.length) :
    ∃ t, runAll (List.replicate p.length i) s = some (p.map fun b => shownNat b.toNat, t) ∧
      t.cur.buf = pre ++ p ∧ t.cur.pos = 8 * (pre ++ p).length := by
  induction p generalizing pre s with
  | nil => exact ⟨s, rfl, hbuf, by rw [hpos, List.append_nil]⟩
  | cons b rest ih =>
    have hbyte : memRead s.cur.buf pre.length = some b := by
      rw [hbuf, memRead, List.getElem?_append_right (Nat.le_refl _), Nat.sub_self,
        List.getElem?_cons_zero]
    have hlt := lt_length_of_memRead hbyte
    have hread := exec_rdbits_of_le (n := 8) (s := s) (by omega) (by decide)
    rw [hpos, assemble_bitsFrom_byte hbyte, ← hi] at hread
    have hpre : pre ++ b :: rest = (pre ++ [b]) ++ rest := List.append_cons pre b rest
    rw [hpre] at hbuf ⊢
    obtain ⟨t, hrun, hend⟩ := ih (pre ++ [b])
      (s := { s with cur := s.cur.moveTo (8 * pre.length + 8), resp := some (shownNat b.toNat) })
      hbuf (by rw [BitCursor.pos_moveTo, List.length_append]; rfl)
    exact ⟨t, runAll_cons hread rfl hrun, hend⟩

/-! The statements -/

/-- Settles O30: the failure puts the cursor at the end, which is where the appended bits begin. -/
theorem failedBitReadSucceedsAfterAppend : Obligations.FailedBitReadSucceedsAfterAppend := by
  unfold Obligations.FailedBitReadSucceedsAfterAppend
  intro s t b rest ⟨hinv, _⟩ ht hfail hroom
  have hge : 8 * s.cur.buf.length ≤ s.cur.pos := by
    by_contra hlt
    rw [exec_rdbit_of_lt (Nat.lt_of_not_le hlt)] at ht
    cases ht
    cases hfail
  have hend : s.cur.pos = 8 * s.cur.buf.length + 0 := Nat.le_antisymm hinv hge
  rw [exec_oneBitRead_of_ge rfl hge] at ht
  cases ht
  have hlt : (s.cur.extend (b :: rest)).pos < 8 * (s.cur.extend (b :: rest)).buf.length := by
    show s.cur.pos < 8 * (s.cur.buf ++ b :: rest).length
    rw [hend, List.length_append, List.length_cons]
    omega
  refine ⟨rfl, _, _, exec_append_of_hasRoom hroom, exec_rdbit_of_lt hlt, ?_⟩
  show some (shownNat (bitAt (s.cur.buf ++ b :: rest) s.cur.pos)) = _
  rw [hend, bitAt_append_right, bitAt_cons_zero]

/-- Settles O31: short of the end the bit is 1 or 0; at the end both are one-bit reads that fail. -/
theorem flagReadFollowsTheBitRead : Obligations.FlagReadFollowsTheBitRead := by
  unfold Obligations.FlagReadFollowsTheBitRead
  intro s
  rcases Nat.lt_or_ge s.cur.pos (8 * s.cur.buf.length) with hlt | hge
  · refine ⟨_, _, exec_rdflag_of_lt hlt, exec_rdbit_of_lt hlt, rfl, fun _ => ?_,
      fun hge => absurd hlt (Nat.not_lt.mpr hge)⟩
    have hbit := bitAt_lt_two s.cur.buf s.cur.pos
    obtain h0 | h1 : bitAt s.cur.buf s.cur.pos = 0 ∨ bitAt s.cur.buf s.cur.pos = 1 := by omega
    · rw [h0]
      exact .inr ⟨rfl, rfl⟩
    · rw [h1]
      exact .inl ⟨rfl, rfl⟩
  · exact ⟨_, _, exec_oneBitRead_of_ge rfl hge, exec_oneBitRead_of_ge rfl hge, rfl,
      fun hlt => absurd hlt (Nat.not_lt.mpr hge), fun _ => ⟨rfl, rfl⟩⟩

/-- Settles O38: the reads are RDBITS of their width; RDU16 over a byte boundary is two adjacent bytes. -/
theorem unsignedReadsAreReadBitsOfTheirWidth :
    Obligations.UnsignedReadsAreReadBitsOfTheirWidth := by
  unfold Obligations.UnsignedReadsAreReadBitsOfTheirWidth
  refine ⟨fun s iw hiw => ⟨exec_unsignedRead hiw s, fun hle => ⟨?_, assemble_bitsFrom_lt _ _ _⟩⟩,
    fun s a b hbio ha hb => ?_, fun s hlen hpos => ?_⟩
  · rw [exec_unsignedRead hiw s]
    exact exec_rdbits_of_le hle (width_le_of_unsignedRead iw hiw)
  · have hpos : s.cur.pos = 8 * s.cur.byo := by rw [BitCursor.pos, hbio]; rfl
    have hlt := lt_length_of_memRead hb
    refine ⟨_, exec_rdbits_of_le (n := 16) (by omega) (by decide), ?_⟩
    rw [hpos, assemble_bitsFrom_add _ _ 8 8, assemble_bitsFrom_byte ha,
      ← Nat.mul_succ 8 s.cur.byo, assemble_bitsFrom_byte hb]
    rfl
  · have hfail := exec_fixedRead_of_gt (i := .rdu64) (s := s) rfl
      (by rw [BitCursor.Inv, hpos]; exact Nat.zero_le _) (by rw [hlen, hpos]; decide)
    refine ⟨_, hfail, rfl, ?_⟩
    rw [BitCursor.pos_moveTo, hlen]

/-- Settles O39: the reading is the integer of the bit vector read, whose range and sign extension are the library's. -/
theorem signedReadsReinterpretTheBits : Obligations.SignedReadsReinterpretTheBits := by
  unfold Obligations.SignedReadsReinterpretTheBits
  refine ⟨fun s iw hiw hle => ?_, fun s iw hiw ⟨hinv, _⟩ hgt => ?_, fun s hcur => ?_⟩
  · have hw := width_pos_of_signedRead iw hiw
    have hu := assemble_bitsFrom_lt s.cur.buf s.cur.pos iw.2
    obtain ⟨hmin, hmax⟩ := signedOf_range hw hu
    refine ⟨_, _, rfl, rfl, hmin, hmax, ?_⟩
    rw [exec_signedRead_of_le hiw hle, BitVec.signExtend, ← signedOf_eq_toInt hw hu]
    rfl
  · rw [exec_fixedRead_of_gt (bitCount_signedRead iw hiw) hinv hgt,
      exec_fixedRead_of_gt (i := .rdbits iw.2) rfl hinv hgt]
  · have hle : s.cur.pos + 32 ≤ 8 * s.cur.buf.length := by rw [hcur]; decide
    refine ⟨_, _, exec_signedRead_of_le (iw := (.rdi32, 32)) (by decide) hle, rfl, ?_⟩
    rw [hcur]
    decide

/-- Settles O40: both skips and the one end at the sum of the counts, or at the end of the buffer. -/
theorem skipMovesAsTheReadAndComposes : Obligations.SkipMovesAsTheReadAndComposes := by
  unfold Obligations.SkipMovesAsTheReadAndComposes
  refine ⟨fun s n => ⟨exec_skip_of_le, fun ⟨hinv, _⟩ => exec_fixedRead_of_gt rfl hinv⟩,
    fun s a b ⟨hinv, _⟩ => ?_⟩
  obtain ⟨t, -, ht, -, htc⟩ := exec_fixedRead_moveTo_min (i := .skip a) rfl hinv
  have hinv' : t.cur.Inv := by
    rw [htc]
    exact s.cur.inv_moveTo_min _
  obtain ⟨u, -, hu, -, huc⟩ := exec_fixedRead_moveTo_min (i := .skip b) rfl hinv'
  obtain ⟨v, -, hv, -, hvc⟩ := exec_fixedRead_moveTo_min (i := .skip (a + b)) rfl hinv
  refine ⟨t, u, v, ht, hu, hv, ?_⟩
  rw [huc, hvc, htc, BitCursor.pos_moveTo, BitCursor.moveTo_buf, BitCursor.moveTo_moveTo]
  congr 1
  omega

/-- Settles O41: the four reads are a list of fixed lengths; a success moves by the count. -/
theorem advanceLaw : Obligations.AdvanceLaw := by
  unfold Obligations.AdvanceLaw
  refine ⟨fun s k hle => ?_, fun s t r k hr hok => ⟨fun ht => ?_, fun ht => ?_⟩⟩
  · obtain ⟨rs, t, hrun, hcur⟩ :=
      runAll_fixedReads (is := [.rdbits k, .rdbit, .rdbit, .rdbit]) (ns := [k, 1, 1, 1]) (s := s)
        (.cons rfl (.cons rfl (.cons rfl (.cons rfl .nil)))) (Nat.le_of_add_right_le hle)
    exact ⟨rs, t, hrun, by rw [hcur, BitCursor.pos_moveTo]; rfl⟩
  · rw [exec_fixedRead_moveTo_of_ok rfl ht hr hok, BitCursor.pos_moveTo]
  · rw [exec_fixedRead_moveTo_of_ok rfl ht hr hok, BitCursor.pos_moveTo]

/-- Settles O42: from the created cursor, the byte reads give the whole payload. -/
theorem packingLaw : Obligations.PackingLaw := by
  unfold Obligations.PackingLaw
  intro s p hroom i hi
  have hi8 : ∀ t, exec i t = exec (.rdbits 8) t := by
    simp only [List.mem_cons, List.not_mem_nil, or_false] at hi
    obtain rfl | rfl := hi <;> exact fun _ => rfl
  obtain ⟨t, hrun, hend⟩ := runAll_byteReads hi8 [] p
    (s := { s with cur := BitCursor.over p, resp := some plainOk }) rfl rfl
  exact ⟨t, runAll_cons (exec_create_of_hasRoom hroom) rfl hrun, hend⟩

/-- Settles O29: the byte at `byo` holds the bit at the cursor, and the move is `advance`. -/
theorem singleBitReadTakesOneBit : Obligations.SingleBitReadTakesOneBit := by
  unfold Obligations.SingleBitReadTakesOneBit
  refine fun s => ⟨fun b hb => ?_, fun hge => ?_⟩
  · have hlt := s.cur.pos_lt_iff.mpr (lt_length_of_memRead hb)
    have hbit : bitAt s.cur.buf s.cur.pos = b.toNat / 2 ^ (7 - s.cur.bio.val) % 2 :=
      bitAt_of_memRead hb s.cur.bio.isLt
    rw [exec_rdbit_of_lt hlt, hbit, ← s.cur.advance_eq, s.cur.advance_eq_ite]
  · exact exec_oneBitRead_of_ge rfl
      (Nat.le_of_not_lt fun hlt => absurd (s.cur.pos_lt_iff.mp hlt) (Nat.not_lt.mpr hge))

/-- Settles O33: a loop of no iterations. -/
theorem readOfZeroBitsNeverFails : Obligations.ReadOfZeroBitsNeverFails := by
  unfold Obligations.ReadOfZeroBitsNeverFails
  exact fun s => ⟨exec_rdbits_zero s, exec_skip_zero s⟩

end Sys2Proof.Machine
end

section
/-! PROOFS. The family 42_exp_golomb: the scan that finds no 1 (R133), and the zig-zag mapping with its inverse (R137). The
facts about the mapping are read off its two doubling equations, one per parity. -/

namespace Sys2Proof.Machine

/-! The zig-zag mapping (R136, R137) -/

/-- The halving of an odd code value is exact. -/
theorem two_mul_zigzag_of_odd {v : Nat} (h : v % 2 = 1) : 2 * zigzag v = v + 1 := by
  rw [zigzag, if_pos h]
  omega

/-- The halving of an even code value is exact. -/
theorem two_mul_zigzag_of_even {v : Nat} (h : v % 2 = 0) : 2 * zigzag v = -(v : Int) := by
  rw [zigzag, if_neg (by omega)]
  omega

/-- A positive integer comes from the odd number `2z - 1`. -/
theorem zigzag_of_pos {z : Int} (h : 0 < z) : zigzag (2 * z - 1).toNat = z := by
  have hdouble := two_mul_zigzag_of_odd (v := (2 * z - 1).toNat) (by omega)
  omega

/-- An integer that is not positive comes from the even number `-2z`. -/
theorem zigzag_of_nonpos {z : Int} (h : z ≤ 0) : zigzag (-2 * z).toNat = z := by
  have hdouble := two_mul_zigzag_of_even (v := (-2 * z).toNat) (by omega)
  omega

/-- The two doubling equations as a case split. -/
theorem two_mul_zigzag_cases (v : Nat) :
    (v % 2 = 1 ∧ 2 * zigzag v = v + 1) ∨ (v % 2 = 0 ∧ 2 * zigzag v = -(v : Int)) :=
  (Nat.mod_two_eq_zero_or_one v).symm.imp (fun h => ⟨h, two_mul_zigzag_of_odd h⟩)
    (fun h => ⟨h, two_mul_zigzag_of_even h⟩)

/-- Odd numbers go to positive integers and even ones do not, and within one parity the double tells the number. -/
theorem zigzag_injective : Function.Injective zigzag := by
  intro v w heq
  obtain ⟨-, hv⟩ | ⟨-, hv⟩ := two_mul_zigzag_cases v <;>
    obtain ⟨-, hw⟩ | ⟨-, hw⟩ := two_mul_zigzag_cases w <;> omega

theorem zigzag_surjective : Function.Surjective zigzag := fun z =>
  (lt_or_ge 0 z).elim (fun h => ⟨_, zigzag_of_pos h⟩) (fun h => ⟨_, zigzag_of_nonpos h⟩)

/-! RDUE without a 1 left (R133) -/

/-- From a cursor in its buffer with zeros only ahead, both Exp-Golomb commands fail at the end of the buffer. -/
theorem exec_golomb_of_none {i : Instr} {s : State} (hi : i ∈ [Instr.rdue, .rdse])
    (hinv : s.cur.Inv)
    (hz : ∀ p, s.cur.pos ≤ p → p < 8 * s.cur.buf.length → bitAt s.cur.buf p = 0) :
    exec i s = .next { s with cur := s.cur.moveTo (8 * s.cur.buf.length), resp := some exhausted } :=
  exec_of_readUE_raised hi (readUE_of_none hinv hz)

/-! The statements -/

/-- Settles O45: the scan runs to the end of the buffer and its error is delivered there. -/
theorem allZeroTailExhaustsTheScan : Obligations.AllZeroTailExhaustsTheScan := by
  unfold Obligations.AllZeroTailExhaustsTheScan
  intro s ⟨hinv, _⟩ hz
  exact exec_golomb_of_none (by decide) hinv hz

/-- Settles O50: injective by the doubling equations, surjective by the inverse. -/
theorem zigzagIsABijection : Obligations.ZigzagIsABijection := by
  unfold Obligations.ZigzagIsABijection
  exact ⟨by decide, ⟨zigzag_injective, zigzag_surjective⟩,
    fun _ => ⟨zigzag_of_pos, zigzag_of_nonpos⟩,
    fun _ => ⟨two_mul_zigzag_of_odd, two_mul_zigzag_of_even⟩⟩

end Sys2Proof.Machine
end

section
/-! PROOFS. The family 60_exceptions: where InvalidRewind comes from (R152). A read only moves forward, so its error is
BufferExhausted, and every other answer short of a failed REWIND is OK. -/

namespace Sys2Proof.Machine

theorem State.answerSigned_ok (v : Nat) (s : State) :
    ∃ r, (s.answerSigned v).resp = some r ∧ r.status = .ok := by
  obtain ⟨-, h⟩ | ⟨-, h⟩ := State.answerSigned_cases v s <;> rw [h] <;> exact ⟨_, rfl, rfl⟩

theorem Response.status_ne_invalidRewind_of_ok {o : Option Response} {r : Response}
    (h : ∃ q, o = some q ∧ q.status = .ok) (hr : o = some r) : r.status ≠ .invalidRewind := by
  obtain ⟨q, rfl, hok⟩ := h
  cases hr
  rw [hok]
  decide

/-- A command that runs a forward-only procedure and answers OK with its value never reports InvalidRewind. -/
theorem State.conclude_status_ne_invalidRewind {α : Type} {s t : State} {x : Attempt α}
    {answer : α → State → State} {r : Response} (hx : x.MovesForward s.cur)
    (ha : ∀ a u, ∃ q, (answer a u).resp = some q ∧ q.status = .ok)
    (ht : s.conclude x answer = .next t) (hr : t.resp = some r) : r.status ≠ .invalidRewind := by
  rcases State.conclude_cases ht with ⟨a, c, rfl, rfl⟩ | ⟨e, c, rfl, rfl⟩
  · exact Response.status_ne_invalidRewind_of_ok (ha a _) hr
  · obtain ⟨rfl, -⟩ := hx
    cases hr
    decide

/-- Neither does a command of fixed length, which succeeds or fails as its ReadBits. -/
theorem exec_fixedRead_status_ne_invalidRewind {i : Instr} {n : Nat} {s t : State} {r : Response}
    (hi : bitCount i = some n) (ht : exec i s = .next t) (hr : t.resp = some r) :
    r.status ≠ .invalidRewind := by
  have hforward := readBits_movesForward n s.cur
  cases hread : readBits n s.cur with
  | done a c =>
    obtain ⟨u, q, hu, -, hok⟩ := exec_of_readBits_done hi hread
    obtain rfl : u = t := Host.Outcome.next.inj (hu.symm.trans ht)
    exact Response.status_ne_invalidRewind_of_ok ⟨q, hok⟩ hr
  | raised e c =>
    rw [hread] at hforward
    obtain ⟨rfl, -⟩ := hforward
    rw [exec_of_readBits_raised hi hread] at ht
    cases ht
    cases hr
    decide

/-- Short of a REWIND by more than the position, no command reports InvalidRewind. -/
theorem exec_status_ne_invalidRewind {i : Instr} {s t : State} {r : Response}
    (hi : ∀ n, i = .rewind n → n ≤ s.cur.pos) (ht : exec i s = .next t) (hr : t.resp = some r) :
    r.status ≠ .invalidRewind := by
  cases i with
  | create p =>
    obtain ⟨-, rfl⟩ := execCreate_next ht
    exact Response.status_ne_invalidRewind_of_ok ⟨_, rfl, rfl⟩ hr
  | append p =>
    obtain ⟨-, rfl⟩ := execAppend_next ht
    exact Response.status_ne_invalidRewind_of_ok ⟨_, rfl, rfl⟩ hr
  | trim =>
    cases ht
    exact Response.status_ne_invalidRewind_of_ok ⟨_, rfl, rfl⟩ hr
  | index =>
    cases ht
    exact Response.status_ne_invalidRewind_of_ok (State.answerNat_ok _ s) hr
  | rewind n =>
    rw [exec_rewind_of_le (hi n rfl)] at ht
    cases ht
    exact Response.status_ne_invalidRewind_of_ok ⟨_, rfl, rfl⟩ hr
  | rdbit | rdflag | rdbits | skip | rdu8 | rdu16 | rdu32 | rdu64 | rdi8 | rdi16 | rdi32 | rdi64 =>
    exact exec_fixedRead_status_ne_invalidRewind rfl ht hr
  | rdue =>
    exact State.conclude_status_ne_invalidRewind (readUE_movesForward _) State.answerNat_ok ht hr
  | rdse =>
    exact State.conclude_status_ne_invalidRewind (readUE_movesForward _) State.answerSigned_ok ht hr

/-! The statement -/

/-- Settles O15: a REWIND by more than the position fails with the cursor unmoved, and nothing else reports it. -/
theorem invalidRewindComesFromRewindAlone : Obligations.InvalidRewindComesFromRewindAlone := by
  unfold Obligations.InvalidRewindComesFromRewindAlone
  intro i s t r ht hr
  by_cases hfail : ∃ n, i = .rewind n ∧ s.cur.pos < n
  · obtain ⟨n, rfl, hlt⟩ := hfail
    rw [exec_rewind_of_lt hlt] at ht
    cases ht
    cases hr
    exact ⟨iff_of_true rfl ⟨n, rfl, hlt⟩, fun _ => ⟨rfl, rfl, rfl⟩⟩
  · have hne : r.status ≠ .invalidRewind := exec_status_ne_invalidRewind
      (fun n hi => Nat.le_of_not_lt fun hlt => hfail ⟨n, hi, hlt⟩) ht hr
    exact ⟨iff_of_false hne hfail, fun h => absurd h hne⟩

end Sys2Proof.Machine
end

section
/-! PROOFS. The family 70_reset_and_hazards: the reset state is the one CREATE gives for the empty sequence (R170). -/

namespace Sys2Proof.Machine

/-- Settles O1: the cursor of reset is the cursor CREATE puts over `[]`, for which every BUF_CAP has room. -/
theorem resetIsTheEmptyCursor : Obligations.ResetIsTheEmptyCursor := by
  unfold Obligations.ResetIsTheEmptyCursor
  have hcreate : exec (.create []) State.reset =
      .next { State.reset with cur := BitCursor.over [], resp := some plainOk } :=
    exec_create_of_hasRoom State.reset.hasRoom_zero
  exact ⟨rfl, rfl, rfl, rfl, rfl, _, hcreate, rfl⟩

end Sys2Proof.Machine
end

section
/-! PROOFS. The command port: what a step does with each kind of interaction (10_state R31, R34, R36; 60_exceptions R165,
R166), and `step_next`, which says once what any step that gives a next state has done. -/

namespace Sys2Proof.Machine

section Port
variable {s : State} {rest : List HostEvent}

theorem step_of_empty (h : s.port = []) : step s = .next s.hold := by
  simp only [step, takeEvent, h]

theorem step_of_event {e : HostEvent} (h : s.port = e :: rest) :
    step s = runEvent e { s with port := rest } := by
  simp only [step, takeEvent, h]

theorem runCommand_of_ok {c : Command} {i : Instr} (h : decode c = .ok i) :
    runCommand c s = exec i s := by
  simp only [runCommand, h]

theorem runCommand_of_error {c : Command} {r : Reject} (h : decode c = .error r) :
    runCommand c s = .refused (.undecodable r) := by
  simp only [runCommand, h]

end Port

/-- Everything a step that gives a next state can have done: held the unit, reset it, or run a command. -/
theorem step_next {s t : State} (h : step s = .next t) :
    t = s.hold ∨ (∃ rest, t = State.hardReset { s with port := rest }) ∨
      ∃ i rest, exec i { s with port := rest } = .next t := by
  cases hport : s.port with
  | nil =>
    rw [step_of_empty hport] at h
    cases h
    exact .inl rfl
  | cons e rest =>
    rw [step_of_event hport] at h
    cases e with
    | reset => cases h; exact .inr (.inl ⟨rest, rfl⟩)
    | unserialised a b => cases h
    | command c =>
      rw [runEvent] at h
      cases hdec : decode c with
      | ok i => exact .inr (.inr ⟨i, rest, runCommand_of_ok hdec ▸ h⟩)
      | error r => rw [runCommand_of_error hdec] at h; cases h

theorem decode_of_decodeTableWord {nbits w : Nat} {i : Instr} (h : decodeTableWord nbits w = some i) :
    decode (tableCommand nbits w) = .ok i := by
  unfold decodeTableWord at h
  split at h
  next j hdec => cases h; exact hdec
  next => cases h

/-- Settles O2: the step is `hardReset` of the state without that interaction. -/
theorem hostResetRestoresTheEmptyCursor : Obligations.HostResetRestoresTheEmptyCursor := by
  unfold Obligations.HostResetRestoresTheEmptyCursor
  exact fun s rest hport => ⟨_, step_of_event hport, rfl, rfl, rfl, rfl⟩

/-- Settles O3: the interaction is the command, and the command is what it decodes to. -/
theorem stepRunsTheDecodedCommand : Obligations.StepRunsTheDecodedCommand := by
  unfold Obligations.StepRunsTheDecodedCommand
  exact fun s c rest i hport hdec => (step_of_event hport).trans (runCommand_of_ok hdec)

/-- Settles O4: taking the placed command off the port gives the state back. -/
theorem placedCommandRunsNext : Obligations.PlacedCommandRunsNext := by
  unfold Obligations.PlacedCommandRunsNext
  exact fun s nbits w i h => runCommand_of_ok (s := s) (decode_of_decodeTableWord h)

/-- Settles O5: one clause per kind of request. -/
theorem undefinedRequestsAreRefused : Obligations.UndefinedRequestsAreRefused := by
  unfold Obligations.UndefinedRequestsAreRefused
  exact ⟨fun s c rest r hport hdec => (step_of_event hport).trans (runCommand_of_error hdec),
    fun s a b rest hport => step_of_event hport⟩

/-- Settles O6: the step is `hold`. -/
theorem idleStepHoldsTheUnit : Obligations.IdleStepHoldsTheUnit := by
  unfold Obligations.IdleStepHoldsTheUnit
  exact fun s hport => ⟨_, step_of_empty hport, rfl, hport, rfl, rfl, rfl⟩

end Sys2Proof.Machine
end

section
/-! PROOFS. The shape of a command: `procedure` says once what each of the 19 commands runs and answers, and `exec_eq`
gives the whole next state of every command that BUF_CAP admits. What holds of every command (10_state R27, R29 and R36,
20_memory R47, 60_exceptions R151, 70_reset_and_hazards R180) is read off these two. -/

namespace Sys2Proof.Machine

/-! Answers -/

/-- What a command that ends well gives the host: nothing, a result VALUE shows, or a result VALUE does not show
(30_encoding R68 to R70). -/
inductive Answer where
  | plain
  | exact (r : Result) (v : Value)
  | free (r : Result)

/-- The answer laid into the response port. -/
def Answer.give : Answer → State → State
  | .plain, s => s.answerNone
  | .exact r v, s => s.answerExact r v
  | .free r, s => s.answerFree r

/-- The response the answer makes when `d` free values have been drawn. -/
def Answer.response : Answer → Nat → Response
  | .plain, _ => plainOk
  | .exact r v, _ => { status := .ok, result := some r, value := some v }
  | .free r, d => { status := .ok, result := some r, value := some (Config.freeValue d) }

/-- How many free values the answer draws. -/
def Answer.drawn : Answer → Nat
  | .plain => 0
  | .exact _ _ => 0
  | .free _ => 1

/-- The answer carries a result and a VALUE. -/
def Answer.valued : Answer → Bool
  | .plain => false
  | .exact _ _ => true
  | .free _ => true

theorem Answer.give_eq (a : Answer) (s : State) :
    a.give s = { s with resp := some (a.response s.draws), draws := s.draws + a.drawn } := by
  cases a <;> rfl

theorem Answer.response_status (a : Answer) (d : Nat) : (a.response d).status = .ok := by
  cases a <;> rfl

theorem Answer.response_isSome (a : Answer) (d : Nat) :
    (a.response d).value.isSome = a.valued ∧ (a.response d).result.isSome = a.valued := by
  cases a <;> exact ⟨rfl, rfl⟩

theorem Answer.response_result (a : Answer) (d e : Nat) :
    (a.response d).result = (a.response e).result := by cases a <;> rfl

theorem Answer.response_of_drawn_zero {a : Answer} (h : a.drawn = 0) (d e : Nat) :
    a.response d = a.response e := by
  cases a with
  | plain | exact => rfl
  | free => cases h

theorem Answer.drawn_le_one (a : Answer) : a.drawn ≤ 1 := by
  cases a with
  | plain | exact => exact Nat.zero_le 1
  | free => exact Nat.le_refl 1

/-- The answer of a natural number. -/
def Answer.ofNat (n : Nat) : Answer :=
  if n < 2 ^ 64 then .exact (.nat n) (BitVec.ofNat 64 n) else .free (.nat n)

/-- The answer of a boolean. -/
def Answer.ofFlag (b : Bool) : Answer := .exact (.flag b) (if b then 1 else 0)

/-- The answer of an integer within 64 bits. -/
def Answer.ofInt (z : Int) : Answer := .exact (.int z) (BitVec.ofInt 64 z)

/-- The answer of RDSE over the code value `v`. -/
def Answer.ofSigned (v : Nat) : Answer :=
  if v < 2 ^ 64 - 1 then .ofInt (zigzag v) else .free (.int (zigzag v))

theorem Answer.give_ofNat (n : Nat) : (Answer.ofNat n).give = State.answerNat n := by
  funext s
  rw [Answer.ofNat, State.answerNat]
  split <;> rfl

theorem Answer.give_ofSigned (v : Nat) : (Answer.ofSigned v).give = State.answerSigned v := by
  funext s
  rw [Answer.ofSigned, State.answerSigned]
  split <;> rfl

@[simp] theorem Answer.valued_ofNat (n : Nat) : (Answer.ofNat n).valued = true := by
  rw [Answer.ofNat]
  split <;> rfl

@[simp] theorem Answer.valued_ofSigned (v : Nat) : (Answer.ofSigned v).valued = true := by
  rw [Answer.ofSigned]
  split <;> rfl

theorem Answer.drawn_ofNat {n : Nat} (h : n < 2 ^ 64) : (Answer.ofNat n).drawn = 0 := by
  rw [Answer.ofNat, if_pos h]
  rfl

/-! How an attempt ends -/

/-- Go on to another value over the same cursor. -/
def Attempt.map {α β : Type} (f : α → β) (x : Attempt α) : Attempt β :=
  x.andThen fun a c => .done (f a) c

/-- The cursor an attempt ends with, whether it returns or raises (00_scope R7). -/
def Attempt.final {α : Type} : Attempt α → BitCursor
  | .done _ c => c
  | .raised _ c => c

/-- Every value the attempt returns satisfies `P`. -/
def Attempt.Returns {α : Type} (P : α → Prop) : Attempt α → Prop
  | .done a _ => P a
  | .raised _ _ => True

theorem Attempt.final_map {α β : Type} (f : α → β) (x : Attempt α) : (x.map f).final = x.final := by
  cases x <;> rfl

theorem Attempt.Returns.map {α β : Type} {P : α → Prop} {Q : β → Prop} {x : Attempt α}
    (hx : x.Returns P) {f : α → β} (hf : ∀ a, P a → Q (f a)) : (x.map f).Returns Q := by
  cases x with
  | done a c => exact hf a hx
  | raised e c => trivial

theorem Attempt.returns_map {α β : Type} {Q : β → Prop} (x : Attempt α) {f : α → β}
    (hf : ∀ a, Q (f a)) : (x.map f).Returns Q := by
  cases x with
  | done a c => exact hf a
  | raised e c => trivial

/-- The response of a command whose procedure ended so, when `d` free values have been drawn. -/
def Attempt.response : Attempt Answer → Nat → Response
  | .done a _, d => a.response d
  | .raised e _, _ => { status := e.status, result := none, value := none }

/-- How many free values it draws. -/
def Attempt.drawn : Attempt Answer → Nat
  | .done a _ => a.drawn
  | .raised _ _ => 0

theorem Attempt.drawn_le_one (x : Attempt Answer) : x.drawn ≤ 1 := by
  cases x with
  | done a c => exact a.drawn_le_one
  | raised e c => exact Nat.zero_le 1

theorem Attempt.drawn_of_returns {x : Attempt Answer} (h : x.Returns fun a => a.drawn = 0) :
    x.drawn = 0 := by
  cases x with
  | done a c => exact h
  | raised e c => rfl

/-- Status and result do not depend on the counter of free values. -/
theorem Attempt.response_exact (x : Attempt Answer) (d e : Nat) :
    (x.response d).status = (x.response e).status ∧ (x.response d).result = (x.response e).result := by
  cases x with
  | done a c =>
    exact ⟨(a.response_status d).trans (a.response_status e).symm, a.response_result d e⟩
  | raised k c => exact ⟨rfl, rfl⟩

theorem Attempt.response_of_drawn_zero {x : Attempt Answer} (h : x.drawn = 0) (d e : Nat) :
    x.response d = x.response e := by
  cases x with
  | done a c => exact Answer.response_of_drawn_zero h d e
  | raised k c => rfl

theorem State.conclude_map {α β : Type} (s : State) (x : Attempt α) (f : α → β)
    (answer : β → State → State) :
    s.conclude (x.map f) answer = s.conclude x fun a => answer (f a) := by cases x <;> rfl

/-- The whole next state of a command, from the end of its procedure. -/
theorem State.conclude_give (s : State) (x : Attempt Answer) :
    s.conclude x Answer.give =
      .next { s with cur := x.final, resp := some (x.response s.draws), draws := s.draws + x.drawn } := by
  cases x with
  | done a c => exact congrArg _ (a.give_eq _)
  | raised e c => rfl

/-! The procedure of each command -/

/-- What a command runs over the cursor and answers (40_cursor_and_buffer R80 to R94, 41_bit_extraction R100 to R126,
42_exp_golomb R130 to R142), the capacity aside. -/
def procedure : Instr → BitCursor → Attempt Answer
  | .create p, _ => .done .plain (BitCursor.over p)
  | .append p, c => .done .plain (c.extend p)
  | .trim, c => .done .plain c.trimmed
  | .index, c => .done (.ofNat c.pos) c
  | .rewind n, c => (c.rewind n).map fun _ => .plain
  | .rdbit, c => (readBits 1 c).map .ofNat
  | .rdflag, c => (readBits 1 c).map fun b => .ofFlag (b == 1)
  | .rdbits n, c => (readBits n c).map .ofNat
  | .skip n, c => (readBits n c).map fun _ => .plain
  | .rdu8, c => (readBits 8 c).map .ofNat
  | .rdu16, c => (readBits 16 c).map .ofNat
  | .rdu32, c => (readBits 32 c).map .ofNat
  | .rdu64, c => (readBits 64 c).map .ofNat
  | .rdi8, c => (readBits 8 c).map fun u => .ofInt (signedOf 8 u)
  | .rdi16, c => (readBits 16 c).map fun u => .ofInt (signedOf 16 u)
  | .rdi32, c => (readBits 32 c).map fun u => .ofInt (signedOf 32 u)
  | .rdi64, c => (readBits 64 c).map fun u => .ofInt (signedOf 64 u)
  | .rdue, c => (readUE c).map .ofNat
  | .rdse, c => (readUE c).map .ofSigned

theorem State.conclude_readInt (s : State) (w : Nat) :
    s.conclude (readInt w s.cur) State.answerInt =
      s.conclude ((readBits w s.cur).map fun u => .ofInt (signedOf w u)) Answer.give := by
  rw [State.conclude_map]
  exact State.conclude_map s (readBits w s.cur) (signedOf w) State.answerInt

theorem State.conclude_answerNat (s : State) (x : Attempt Nat) :
    s.conclude x State.answerNat = s.conclude (x.map .ofNat) Answer.give := by
  simp only [State.conclude_map, Answer.give_ofNat]

/-- A command that BUF_CAP admits runs its procedure and gives its answer. -/
theorem exec_eq_conclude {i : Instr} {s : State} (h : s.admits i = true) :
    exec i s = s.conclude (procedure i s.cur) Answer.give := by
  cases i with
  | create p => exact exec_create_of_hasRoom h
  | append p => exact exec_append_of_hasRoom h
  | trim => rfl
  | index => rw [exec_index, ← Answer.give_ofNat]; rfl
  | rdbit => rw [procedure, readBits_one]; exact s.conclude_answerNat _
  | rdflag => rw [procedure, readBits_one, State.conclude_map]; rfl
  | rewind | skip => rw [procedure, State.conclude_map]; rfl
  | rdbits | rdu8 | rdu16 | rdu32 | rdu64 | rdue => exact s.conclude_answerNat _
  | rdi8 | rdi16 | rdi32 | rdi64 => exact s.conclude_readInt _
  | rdse => rw [procedure, State.conclude_map, funext Answer.give_ofSigned]; rfl

/-- The next state that command `i` gives from `s` where BUF_CAP admits it. -/
def State.after (i : Instr) (s : State) : State :=
  { s with
    cur := (procedure i s.cur).final
    resp := some ((procedure i s.cur).response s.draws)
    draws := s.draws + (procedure i s.cur).drawn }

theorem exec_eq {i : Instr} {s : State} (h : s.admits i = true) : exec i s = .next (s.after i) :=
  (exec_eq_conclude h).trans (s.conclude_give _)

/-- A command beyond BUF_CAP is refused (40_cursor_and_buffer R84). -/
theorem exec_refused {i : Instr} {s : State} (h : s.admits i = false) :
    exec i s = .refused .overCapacity := by
  cases i with
  | create p => exact (exec_create_refused_iff s p).mpr (Bool.not_eq_true _ ▸ h)
  | append p => exact (exec_append_refused_iff s p).mpr (Bool.not_eq_true _ ▸ h)
  | _ => cases h

/-- Everything a command that answers can do. -/
theorem exec_next {i : Instr} {s t : State} (h : exec i s = .next t) :
    s.admits i = true ∧ t = s.after i := by
  cases hadm : s.admits i with
  | false => rw [exec_refused hadm] at h; cases h
  | true => rw [exec_eq hadm] at h; cases h; exact ⟨rfl, rfl⟩

/-! Where a procedure ends -/

theorem readBits_final_inv (n : Nat) {c : BitCursor} (hi : c.Inv) : (readBits n c).final.Inv := by
  obtain ⟨hle, h⟩ | ⟨-, h⟩ := readBits_cases n hi <;>
    rw [h, Attempt.final, BitCursor.Inv, BitCursor.pos_moveTo, BitCursor.moveTo_buf]
  exact hle

theorem readUE_final_inv {c : BitCursor} (hi : c.Inv) : (readUE c).final.Inv := by
  obtain ⟨z, -, -, hle, h⟩ | h := readUE_cases hi <;>
    rw [h, Attempt.final, BitCursor.Inv, BitCursor.pos_moveTo, BitCursor.moveTo_buf]
  exact hle

theorem BitCursor.trimmed_inv {c : BitCursor} (hi : c.Inv) : c.trimmed.Inv := by
  have hpos := c.pos_trimmed
  simp only [BitCursor.Inv, BitCursor.trimmed_buf, List.length_drop] at hi ⊢
  omega

theorem BitCursor.rewind_final_inv (n : Nat) {c : BitCursor} (hi : c.Inv) :
    (c.rewind n).final.Inv := by
  obtain ⟨hn, h⟩ | ⟨-, h⟩ := c.rewind_cases n <;> rw [h]
  · rw [Attempt.final, BitCursor.Inv, BitCursor.pos_moveTo, BitCursor.moveTo_buf]
    exact (Nat.sub_le _ n).trans hi
  · exact hi

/-- Every procedure leaves the cursor in the buffer, failed ones included (10_state R27). -/
theorem procedure_final_inv (i : Instr) {c : BitCursor} (hi : c.Inv) : (procedure i c).final.Inv := by
  cases i with
  | create p => exact Nat.zero_le _
  | append p =>
    show c.pos ≤ 8 * (c.buf ++ p).length
    rw [List.length_append]
    exact hi.trans (Nat.mul_le_mul_left 8 (Nat.le_add_right _ _))
  | trim => exact BitCursor.trimmed_inv hi
  | index => exact hi
  | rewind n =>
    rw [procedure, Attempt.final_map]
    exact BitCursor.rewind_final_inv n hi
  | rdbit | rdflag | rdbits | skip | rdu8 | rdu16 | rdu32 | rdu64 | rdi8 | rdi16 | rdi32 | rdi64 =>
    rw [procedure, Attempt.final_map]
    exact readBits_final_inv _ hi
  | rdue | rdse =>
    rw [procedure, Attempt.final_map]
    exact readUE_final_inv hi

/-! The invariant (10_state R27) -/

theorem State.hasRoom_mono {s : State} {m n : Nat} (hmn : m ≤ n) (h : s.hasRoom n = true) :
    s.hasRoom m = true := by
  cases hcap : s.cfg.bufCap with
  | none => exact State.hasRoom_of_unbounded hcap m
  | some cap =>
    rw [State.hasRoom_of_finite hcap] at h ⊢
    exact hmn.trans h

/-- The buffer stays within BUF_CAP through every command that is admitted. -/
theorem exec_keeps_room {i : Instr} {s t : State} (h : exec i s = .next t)
    (hroom : s.hasRoom s.cur.buf.length = true) : s.hasRoom t.cur.buf.length = true := by
  obtain ⟨hadm, -⟩ := exec_next h
  have hm : CursorMove s.cur i t.cur := exec_cursorMove h
  generalize t.cur = d at hm ⊢
  cases hm with
  | create p => exact hadm
  | append p => rw [BitCursor.extend_buf, List.length_append]; exact hadm
  | trim =>
    rw [BitCursor.trimmed_buf, List.length_drop]
    exact State.hasRoom_mono (Nat.sub_le _ _) hroom
  | rewound | rewindFailed => exact hroom
  | forward _ _ hd => rw [hd.1]; exact hroom

theorem exec_keeps_inv {i : Instr} {s t : State} (hinv : s.Inv) (h : exec i s = .next t) : t.Inv := by
  obtain ⟨hcur, hroom, hcfg⟩ := hinv
  have hroom' : s.hasRoom t.cur.buf.length = true := exec_keeps_room h hroom
  obtain ⟨-, rfl⟩ := exec_next h
  exact ⟨procedure_final_inv i hcur, hroom', hcfg⟩

/-- Settles O7: holding and the reset event keep it at once, a command by `exec_keeps_inv`. -/
theorem everyStepKeepsTheCursorInTheBuffer : Obligations.EveryStepKeepsTheCursorInTheBuffer := by
  unfold Obligations.EveryStepKeepsTheCursorInTheBuffer
  intro s t hinv h
  obtain rfl | ⟨rest, rfl⟩ | ⟨i, rest, hexec⟩ := step_next h
  · exact hinv
  · obtain ⟨-, -, hcfg⟩ := hinv
    exact ⟨Nat.le_refl 0, State.hasRoom_zero _, hcfg⟩
  · exact exec_keeps_inv (s := { s with port := rest }) hinv hexec

/-- Settles O8: the empty buffer at position 0 with BUF_CAP unbounded. -/
theorem resetIsWithinTheInvariant : Obligations.ResetIsWithinTheInvariant := by
  unfold Obligations.ResetIsWithinTheInvariant
  exact ⟨Nat.le_refl 0, State.hasRoom_zero State.reset, rfl⟩

/-! Values and free draws -/

/-- ReadBits(n) in every state: the value it returns is the bits in read order. -/
theorem readBitsFrom_value_of_done {n acc a : Nat} {c d : BitCursor}
    (h : readBitsFrom n acc c = .done a d) :
    a = (bitsFrom c.buf c.pos n).foldl (fun x b => x * 2 + b) acc := by
  induction n generalizing acc c with
  | zero => cases h; rfl
  | succ n ih =>
    obtain ⟨-, hr⟩ | ⟨-, hr⟩ := readBit_cases c <;> rw [readBitsFrom, hr] at h
    · rw [ih h, BitCursor.pos_moveTo, BitCursor.moveTo_buf, bitsFrom_succ, List.foldl_cons]
    · cases h

theorem readBits_returns_lt (n : Nat) (c : BitCursor) : (readBits n c).Returns (· < 2 ^ n) := by
  cases h : readBits n c with
  | done a d =>
    rw [Attempt.Returns, readBitsFrom_value_of_done h]
    exact assemble_bitsFrom_lt _ _ _
  | raised e d => trivial

/-- A read of at most 64 bits draws no free value. -/
theorem readBits_ofNat_drawn {n : Nat} (hn : n ≤ 64) (c : BitCursor) :
    ((readBits n c).map .ofNat).drawn = 0 :=
  Attempt.drawn_of_returns <| (readBits_returns_lt n c).map fun _ ha =>
    Answer.drawn_ofNat (ha.trans_le (Nat.pow_le_pow_right (by decide) hn))

/-- Only the four commands of `mayDraw` draw a free value. -/
theorem procedure_drawn {i : Instr} (hi : mayDraw i = false) (c : BitCursor) :
    (procedure i c).drawn = 0 := by
  cases i with
  | index | rdbits | rdue | rdse => cases hi
  | create | append | trim => rfl
  | rewind | rdflag | skip | rdi8 | rdi16 | rdi32 | rdi64 =>
    exact Attempt.drawn_of_returns (Attempt.returns_map _ fun _ => rfl)
  | rdbit | rdu8 | rdu16 | rdu32 | rdu64 => exact readBits_ofNat_drawn (by decide) c

/-- A procedure that returns gives a value exactly when its command has one (30_encoding R68, R69). -/
theorem procedure_valued (i : Instr) (c : BitCursor) :
    (procedure i c).Returns fun a => a.valued = hasValue i := by
  cases i with
  | create | append | trim => rfl
  | index => exact Answer.valued_ofNat _
  | rewind | rdflag | skip | rdi8 | rdi16 | rdi32 | rdi64 => exact Attempt.returns_map _ fun _ => rfl
  | rdbit | rdbits | rdu8 | rdu16 | rdu32 | rdu64 | rdue =>
    exact Attempt.returns_map _ Answer.valued_ofNat
  | rdse => exact Attempt.returns_map _ Answer.valued_ofSigned

/-! The statements about every command -/

theorem State.admits_congr {s s' : State} (hcur : s.cur = s'.cur) (hcfg : s.cfg = s'.cfg)
    (i : Instr) : s.admits i = s'.admits i := by
  cases i with
  | create | append => simp only [State.admits, State.hasRoom, hcur, hcfg]
  | _ => rfl

/-- Settles O11: cursor, status and result of the next state do not mention the counter; without a draw neither does
the response. -/
theorem commandDependsOnTheUnitAlone : Obligations.CommandDependsOnTheUnitAlone := by
  unfold Obligations.CommandDependsOnTheUnitAlone
  intro i s s' t hcur hcfg h
  obtain ⟨hadm, rfl⟩ := exec_next h
  rw [State.admits_congr hcur hcfg] at hadm
  have hproc : procedure i s'.cur = procedure i s.cur := by rw [hcur]
  obtain ⟨hstatus, hresult⟩ := (procedure i s.cur).response_exact s'.draws s.draws
  refine ⟨s'.after i, _, (procedure i s.cur).response s'.draws, exec_eq hadm, ?_, rfl, ?_, hstatus,
    hresult, fun hdraws => ?_, fun hdraws => by rw [hdraws]⟩
  · rw [State.after, hproc]
    rfl
  · rw [State.after, hproc]
  · have hzero : (procedure i s.cur).drawn = 0 := Nat.left_eq_add.mp hdraws.symm
    rw [Attempt.response_of_drawn_zero hzero]

/-- Settles O12: port and parameters are no part of the procedure, the counter is its draws, and the bytes are those of
the cursor move. -/
theorem everyCommandKeepsItsFrame : Obligations.EveryCommandKeepsItsFrame := by
  unfold Obligations.EveryCommandKeepsItsFrame
  intro i s t h
  have hm : CursorMove s.cur i t.cur := exec_cursorMove h
  obtain ⟨-, rfl⟩ := exec_next h
  refine ⟨rfl, rfl, fun hi => ?_, ?_, ?_, fun hi a => ?_, ?_, ?_⟩
  · exact congrArg (s.draws + ·) (procedure_drawn hi s.cur)
  · have hle := (procedure i s.cur).drawn_le_one
    simp only [State.after]
    omega
  · rintro rfl
    rfl
  · rw [hm.buf_eq hi]
  · rintro p rfl
    refine ⟨rfl, rfl, fun a ha => ?_⟩
    show (s.cur.buf ++ p)[a]? = s.cur.buf[a]?
    obtain hlt | hge := ha
    · exact List.getElem?_append_left hlt
    · rw [List.getElem?_eq_none (by rwa [List.length_append]), List.getElem?_eq_none (by omega)]
  · rintro rfl
    rfl

/-- Settles O13: an admitted command answers as its procedure ended, with a value where it returned one. -/
theorem everyAdmittedCommandAnswers : Obligations.EveryAdmittedCommandAnswers := by
  unfold Obligations.EveryAdmittedCommandAnswers
  intro i s
  refine ⟨fun hadm => ⟨s.after i, _, exec_eq hadm, rfl, ?_⟩, exec_refused⟩
  have hvalued := procedure_valued i s.cur
  cases hproc : procedure i s.cur with
  | done a c =>
    rw [hproc, Attempt.Returns] at hvalued
    rw [Attempt.response, ← hvalued]
    exact ⟨fun _ => a.response_isSome _, fun hne => absurd (a.response_status _) hne⟩
  | raised e c => exact ⟨fun hok => absurd hok e.status_ne_ok, fun _ => ⟨rfl, rfl⟩⟩

/-! BufferExhausted (60_exceptions R151) -/

/-- The commands that read: those of a fixed number of bits and the two Exp-Golomb reads. -/
abbrev IsRead (i : Instr) : Prop := bitCount i ≠ none ∨ i = .rdue ∨ i = .rdse

theorem Attempt.raised_of_map_raised {α β : Type} {f : α → β} {x : Attempt α} {e : ErrorKind}
    {d : BitCursor} (h : x.map f = .raised e d) : x = .raised e d := by
  cases x with
  | done => cases h
  | raised => cases h; rfl

theorem readBits_raised {n : Nat} {c d : BitCursor} {e : ErrorKind} (hi : c.Inv)
    (h : readBits n c = .raised e d) : d = c.moveTo (8 * c.buf.length) := by
  obtain ⟨-, hr⟩ | ⟨-, hr⟩ := readBits_cases n hi <;> rw [hr] at h <;> cases h
  rfl

theorem readUE_raised {c d : BitCursor} {e : ErrorKind} (hi : c.Inv)
    (h : readUE c = .raised e d) : d = c.moveTo (8 * c.buf.length) := by
  obtain ⟨z, -, -, -, hr⟩ | hr := readUE_cases hi <;> rw [hr] at h <;> cases h
  rfl

/-- A procedure that raises BufferExhausted is a read, and it ends at the end of the buffer. -/
theorem procedure_exhausted {i : Instr} {c d : BitCursor} (hi : c.Inv)
    (h : procedure i c = .raised .bufferExhausted d) :
    d = c.moveTo (8 * c.buf.length) ∧ IsRead i := by
  cases i with
  | create | append | trim | index => cases h
  | rewind n =>
    have hr := Attempt.raised_of_map_raised h
    obtain ⟨-, hw⟩ | ⟨-, hw⟩ := c.rewind_cases n <;> rw [hw] at hr <;> cases hr
  | rdbit | rdflag | rdbits | skip | rdu8 | rdu16 | rdu32 | rdu64 | rdi8 | rdi16 | rdi32 | rdi64 =>
    exact ⟨readBits_raised hi (Attempt.raised_of_map_raised h), .inl nofun⟩
  | rdue => exact ⟨readUE_raised hi (Attempt.raised_of_map_raised h), .inr (.inl rfl)⟩
  | rdse => exact ⟨readUE_raised hi (Attempt.raised_of_map_raised h), .inr (.inr rfl)⟩

theorem Attempt.raised_of_response_exhausted {x : Attempt Answer} {d : Nat}
    (h : (x.response d).status = .bufferExhausted) : ∃ c, x = .raised .bufferExhausted c := by
  cases x with
  | done a c => rw [Attempt.response, a.response_status] at h; cases h
  | raised e c =>
    cases e with
    | bufferExhausted => exact ⟨c, rfl⟩
    | invalidRewind => cases h

/-- The whole next state after a BufferExhausted. -/
theorem exec_exhausted {i : Instr} {s t : State} {r : Response} (hinv : s.cur.Inv)
    (h : exec i s = .next t) (hr : t.resp = some r) (hst : r.status = .bufferExhausted) :
    t = { s with cur := s.cur.moveTo (8 * s.cur.buf.length), resp := some exhausted } ∧ IsRead i := by
  obtain ⟨-, rfl⟩ := exec_next h
  cases hr
  obtain ⟨d, hd⟩ := Attempt.raised_of_response_exhausted hst
  obtain ⟨rfl, hread⟩ := procedure_exhausted hinv hd
  refine ⟨?_, hread⟩
  rw [State.after, hd]
  rfl

/-- Settles O14: the next state and the kind of command are those of `exec_exhausted`. -/
theorem exhaustionLeavesTheCursorAtTheEnd : Obligations.ExhaustionLeavesTheCursorAtTheEnd := by
  unfold Obligations.ExhaustionLeavesTheCursorAtTheEnd
  intro i s t r ⟨hinv, _⟩ h hr hst
  obtain ⟨rfl, hread⟩ := exec_exhausted hinv h hr hst
  exact ⟨rfl, BitCursor.pos_moveTo _ _, hread⟩

end Sys2Proof.Machine
end

section
/-! PROOFS. TRIM and the reads after it (40_cursor_and_buffer R86). `Rebased k` relates a cursor to the same cursor over a
buffer without its first `k` bytes; a single-bit read keeps it, so every read does, with the same answer. -/

namespace Sys2Proof.Machine

/-- `c` is `d` with the first `k` bytes of its buffer gone (20_memory R49). -/
structure BitCursor.Rebased (k : Nat) (c d : BitCursor) : Prop where
  buf : c.buf = d.buf.drop k
  byo : c.byo + k = d.byo
  bio : c.bio = d.bio

theorem BitCursor.trimmed_rebased (c : BitCursor) : c.trimmed.Rebased c.byo c :=
  ⟨rfl, Nat.zero_add _, rfl⟩

namespace BitCursor.Rebased
variable {k : Nat} {c d : BitCursor} (h : c.Rebased k d)
include h

theorem pos : c.pos + 8 * k = d.pos := by
  simp only [BitCursor.pos, ← h.byo, h.bio]
  omega

theorem bitsLeft : c.bitsLeft = d.bitsLeft := by
  have hpos := h.pos
  simp only [BitCursor.bitsLeft, h.buf, List.length_drop]
  omega

theorem memRead : Machine.memRead c.buf c.byo = Machine.memRead d.buf d.byo := by
  simp only [Machine.memRead, h.buf, List.getElem?_drop, ← h.byo, Nat.add_comm k]

theorem advance : c.advance.Rebased k d.advance := by
  simp only [BitCursor.advance, h.bio]
  split
  · exact ⟨h.buf, h.byo, rfl⟩
  · exact ⟨h.buf, by rw [← h.byo]; exact Nat.add_right_comm _ _ _, rfl⟩

end BitCursor.Rebased

/-- Both attempts return the same value or raise the same error, over cursors that `R` relates. -/
def Attempt.Agree {α : Type} (R : BitCursor → BitCursor → Prop) : Attempt α → Attempt α → Prop
  | .done a c, .done b d => a = b ∧ R c d
  | .raised e c, .raised f d => e = f ∧ R c d
  | .done _ _, .raised _ _ => False
  | .raised _ _, .done _ _ => False

section Agree
variable {R : BitCursor → BitCursor → Prop}

theorem Attempt.Agree.andThen {α β : Type} {x y : Attempt α} {f g : α → BitCursor → Attempt β}
    (hxy : x.Agree R y) (hfg : ∀ a c d, R c d → (f a c).Agree R (g a d)) :
    (x.andThen f).Agree R (y.andThen g) := by
  cases x with
  | done a c =>
    cases y with
    | done b d => obtain ⟨rfl, hR⟩ := hxy; exact hfg a c d hR
    | raised => exact hxy.elim
  | raised e c =>
    cases y with
    | done => exact hxy.elim
    | raised => exact hxy

theorem Attempt.Agree.map {α β : Type} {x y : Attempt α} (h : x.Agree R y) (f : α → β) :
    (x.map f).Agree R (y.map f) := h.andThen fun _ _ _ hR => ⟨rfl, hR⟩

theorem Attempt.Agree.final {α : Type} {x y : Attempt α} (h : x.Agree R y) : R x.final y.final := by
  cases x with
  | done a c =>
    cases y with
    | done => exact h.2
    | raised => exact h.elim
  | raised e c =>
    cases y with
    | done => exact h.elim
    | raised => exact h.2

theorem Attempt.Agree.response {x y : Attempt Answer} (h : x.Agree R y) (d : Nat) :
    x.response d = y.response d ∧ x.drawn = y.drawn := by
  cases x with
  | done a c =>
    cases y with
    | done b d => obtain ⟨rfl, -⟩ := h; exact ⟨rfl, rfl⟩
    | raised => exact h.elim
  | raised e c =>
    cases y with
    | done => exact h.elim
    | raised => obtain ⟨rfl, -⟩ := h; exact ⟨rfl, rfl⟩

end Agree

section Reads
variable {k : Nat} {c d : BitCursor}

theorem readBit_agree (h : c.Rebased k d) : (readBit c).Agree (BitCursor.Rebased k) (readBit d) := by
  unfold readBit
  rw [h.memRead, h.bio]
  split
  · exact ⟨rfl, h⟩
  · exact ⟨rfl, h.advance⟩

theorem readBitsFrom_agree (n acc : Nat) (h : c.Rebased k d) :
    (readBitsFrom n acc c).Agree (BitCursor.Rebased k) (readBitsFrom n acc d) := by
  induction n generalizing acc c d with
  | zero => exact ⟨rfl, h⟩
  | succ n ih => exact (readBit_agree h).andThen fun b _ _ h' => ih (acc * 2 + b) h'

theorem readBits_agree (n : Nat) (h : c.Rebased k d) :
    (readBits n c).Agree (BitCursor.Rebased k) (readBits n d) := readBitsFrom_agree n 0 h

theorem scanZeros_agree (m lz : Nat) (h : c.Rebased k d) :
    (scanZeros m lz c).Agree (BitCursor.Rebased k) (scanZeros m lz d) := by
  induction m generalizing lz c d with
  | zero => exact ⟨rfl, h⟩
  | succ m ih =>
    refine (readBit_agree h).andThen fun b c' d' h' => ?_
    split
    · exact ⟨rfl, h'⟩
    · exact ih (lz + 1) h'

theorem readUE_agree (h : c.Rebased k d) : (readUE c).Agree (BitCursor.Rebased k) (readUE d) := by
  unfold readUE
  rw [h.bitsLeft]
  exact (scanZeros_agree _ 0 h).andThen fun lz _ _ h' =>
    (readBits_agree lz h').andThen fun _ _ _ h'' => ⟨rfl, h''⟩

theorem procedure_agree {i : Instr} (hi : IsRead i) (h : c.Rebased k d) :
    (procedure i c).Agree (BitCursor.Rebased k) (procedure i d) := by
  cases i with
  | create | append | trim | index | rewind => simp [IsRead, bitCount] at hi
  | rdbit | rdflag | rdbits | skip | rdu8 | rdu16 | rdu32 | rdu64 | rdi8 | rdi16 | rdi32 | rdi64 =>
    exact (readBits_agree _ h).map _
  | rdue | rdse => exact (readUE_agree h).map _

end Reads

theorem State.admits_of_isRead {i : Instr} (hi : IsRead i) (s : State) : s.admits i = true := by
  cases i with
  | create | append => simp [IsRead, bitCount] at hi
  | _ => rfl

/-- Any list of reads gives the same responses over the rebased cursor. -/
theorem runAll_agree {k : Nat} {is : List Instr} (his : ∀ i ∈ is, IsRead i) {s t : State}
    (hcur : t.cur.Rebased k s.cur) (hdraws : t.draws = s.draws) :
    ∃ rs u v, runAll is t = some (rs, u) ∧ runAll is s = some (rs, v) ∧ u.cur.Rebased k v.cur := by
  induction is generalizing s t with
  | nil => exact ⟨[], t, s, rfl, rfl, hcur⟩
  | cons i is ih =>
    obtain ⟨hi, his⟩ := List.forall_mem_cons.mp his
    have hagree := procedure_agree hi hcur
    obtain ⟨hresp, hdrawn⟩ := hagree.response s.draws
    have hdraws' : (t.after i).draws = (s.after i).draws := by
      simp only [State.after, hdraws, hdrawn]
    obtain ⟨rs, u, v, hu, hv, hend⟩ := ih his (s := s.after i) (t := t.after i) hagree.final hdraws'
    have hresp' : (t.after i).resp = some ((procedure i s.cur).response s.draws) := by
      rw [State.after, hdraws, hresp]
    exact ⟨_, u, v, runAll_cons (exec_eq (t.admits_of_isRead hi)) hresp' hu,
      runAll_cons (exec_eq (s.admits_of_isRead hi)) rfl hv, hend⟩

/-- A bit of the buffer without its first `k` bytes. -/
theorem bitAt_drop (buf : List Byte) (k q : Nat) : bitAt (buf.drop k) q = bitAt buf (q + 8 * k) := by
  have hdiv : (q + 8 * k) / 8 = k + q / 8 := by omega
  have hmod : (q + 8 * k) % 8 = q % 8 := by omega
  simp only [bitAt, memRead, hdiv, hmod, List.getElem?_drop]

/-- Settles O22: the trimmed cursor is the old one rebased by `byo` bytes, which every read keeps. -/
theorem trimKeepsWhatIsUnread : Obligations.TrimKeepsWhatIsUnread := by
  unfold Obligations.TrimKeepsWhatIsUnread
  intro s t _ h
  cases h
  have hrebased := s.cur.trimmed_rebased
  refine ⟨?_, fun q _ => bitAt_drop _ _ q, hrebased.bitsLeft, fun is his => ?_⟩
  · rw [s.cur.pos_mod]
    exact Nat.zero_add _
  · obtain ⟨rs, u, v, hu, hv, hend⟩ := runAll_agree his hrebased
      (t := State.answerNone { s with cur := s.cur.trimmed }) rfl
    exact ⟨rs, u, v, hu, hv, hend.pos⟩

end Sys2Proof.Machine
end

section
/-! PROOFS. The encoding (30_encoding R61 to R67, R75). `decode_eq_ok_iff` says once what decodes to a command: a word with
its opcode and operand, and its payload. -/

namespace Sys2Proof

/-! Words and their fields (R61) -/

theorem toNat_eq_fields (w : Word) : w.toNat = opField w * 2 ^ 24 + operandField w :=
  (Nat.div_add_mod' w.toNat (2 ^ 24)).symm

theorem operandField_lt (w : Word) : operandField w < 2 ^ 24 := Nat.mod_lt _ (by decide)

theorem word_of_fields (w : Word) : BitVec.ofNat 32 (opField w * 2 ^ 24 + operandField w) = w := by
  rw [← toNat_eq_fields, BitVec.ofNat_toNat, BitVec.setWidth_eq]

theorem opcode_lt (i : Instr) : opcode i < 256 := by cases i <;> simp [opcode]

/-- A command is well-formed when its operand is a 24-bit number (R64). -/
theorem Instr.wf_iff (i : Instr) : i.wf = true ↔ operand i < 2 ^ 24 := by
  cases i with
  | create | append | rewind | rdbits | skip => exact decide_eq_true_iff
  | _ => exact iff_of_true rfl (by decide)

/-! What decodes (R75) -/

section Formats
variable {op n : Nat} {payload : List Byte} {i : Instr}

theorem decodePayload_eq_ok {mk : List Byte → Instr} (h : decodePayload n payload mk = .ok i) :
    payload.length = n ∧ mk payload = i := by
  unfold decodePayload at h
  split at h
  · cases h; exact ⟨‹_›, rfl⟩
  · cases h

theorem decodeCount_eq_ok {mk : Nat → Instr} (h : decodeCount n payload mk = .ok i) :
    payload = [] ∧ mk n = i := by
  unfold decodeCount at h
  split at h
  · cases h; exact ⟨List.length_eq_zero_iff.mp ‹_›, rfl⟩
  · cases h

theorem decodePlain_eq_ok {j : Instr} (h : decodePlain op n payload j = .ok i) :
    n = 0 ∧ payload = [] ∧ j = i := by
  unfold decodePlain at h
  split at h
  · split at h
    · cases h; exact ⟨‹_›, List.length_eq_zero_iff.mp ‹_›, rfl⟩
    · cases h
  · cases h

/-- The fields and the payload of a word that decodes are those of its command. -/
theorem fields_of_decodeFields (h : decodeFields op n payload = .ok i) :
    op = opcode i ∧ n = operand i ∧ payload = payloadOf i := by
  unfold decodeFields at h
  split at h
  case h_1 | h_2 => obtain ⟨rfl, rfl⟩ := decodePayload_eq_ok h; exact ⟨rfl, rfl, rfl⟩
  case h_5 | h_8 | h_9 => obtain ⟨rfl, rfl⟩ := decodeCount_eq_ok h; exact ⟨rfl, rfl, rfl⟩
  case h_20 => cases h
  all_goals obtain ⟨rfl, rfl, rfl⟩ := decodePlain_eq_ok h; exact ⟨rfl, rfl, rfl⟩

end Formats

theorem decodeFields_of_instr (i : Instr) :
    decodeFields (opcode i) (operand i) (payloadOf i) = .ok i := by
  cases i with
  | create p | append p => exact if_pos rfl
  | _ => rfl

/-- A word and payload decode to a command exactly when they are its opcode, its operand and its payload. -/
theorem decode_eq_ok_iff {c : Command} {i : Instr} :
    decode c = .ok i ↔
      opField c.word = opcode i ∧ operandField c.word = operand i ∧ c.payload = payloadOf i := by
  refine ⟨fields_of_decodeFields, fun ⟨hop, hn, hp⟩ => ?_⟩
  rw [decode, hop, hn, hp]
  exact decodeFields_of_instr i

/-- Settles O51: the word of a well-formed command has its fields. -/
theorem decodeAfterEncodeIsTheIdentity : Obligations.DecodeAfterEncodeIsTheIdentity := by
  unfold Obligations.DecodeAfterEncodeIsTheIdentity
  intro i hwf
  obtain ⟨hop, hn⟩ := Laws.WordShape.fields_of_word (opcode_lt i) (i.wf_iff.mp hwf)
  exact decode_eq_ok_iff.mpr ⟨hop, hn, rfl⟩

/-- Settles O52: a word is made of its two fields, and its operand has 24 bits. -/
theorem encodeAfterDecodeIsTheIdentity : Obligations.EncodeAfterDecodeIsTheIdentity := by
  unfold Obligations.EncodeAfterDecodeIsTheIdentity
  intro c i h
  obtain ⟨hop, hn, hp⟩ := decode_eq_ok_iff.mp h
  refine ⟨i.wf_iff.mpr (hn ▸ operandField_lt c.word), ?_⟩
  rw [encode, ← hop, ← hn, ← hp, word_of_fields]

/-! The opcode map (R63) -/

/-- The format of a command (R62). -/
def Instr.format : Instr → Format
  | .create _ => .p
  | .append _ => .p
  | .rewind _ => .n
  | .rdbits _ => .n
  | .skip _ => .n
  | _ => .z

/-- The mask of a format: the whole word where the operand must be 0, the opcode alone elsewhere (R63). -/
def Format.mask : Format → Word
  | .z => 0xFFFFFFFF
  | .n => 0xFF000000
  | .p => 0xFF000000

/-- The row of the opcode map for a command. -/
def Instr.row (i : Instr) : OpcodeRow :=
  { mnemonic := i.mnemonic
    format := i.format
    pattern := BitVec.ofNat 32 (opcode i * 2 ^ 24)
    mask := i.format.mask }

/-- One command for each row. -/
def sampleCommands : List Instr :=
  [.create [], .append [], .trim, .index, .rewind 0, .rdbit, .rdflag, .rdbits 0, .skip 0, .rdu8, .rdu16,
    .rdu32, .rdu64, .rdi8, .rdi16, .rdi32, .rdi64, .rdue, .rdse]

theorem opcodeRows_eq : opcodeRows = sampleCommands.map Instr.row := by decide

theorem row_mem (i : Instr) : i.row ∈ opcodeRows := by
  rw [opcodeRows_eq]
  cases i with
  | create => exact List.mem_map_of_mem (a := Instr.create []) (by decide)
  | append => exact List.mem_map_of_mem (a := Instr.append []) (by decide)
  | rewind => exact List.mem_map_of_mem (a := Instr.rewind 0) (by decide)
  | rdbits => exact List.mem_map_of_mem (a := Instr.rdbits 0) (by decide)
  | skip => exact List.mem_map_of_mem (a := Instr.skip 0) (by decide)
  | _ => exact List.mem_map_of_mem (by decide)

theorem exists_row_eq {r : OpcodeRow} (h : r ∈ opcodeRows) : ∃ i : Instr, i.row = r := by
  rw [opcodeRows_eq] at h
  obtain ⟨i, -, hi⟩ := List.mem_map.mp h
  exact ⟨i, hi⟩

/-- The pattern of a row tells the row. -/
theorem row_eq_of_pattern_eq : ∀ r ∈ opcodeRows, ∀ q ∈ opcodeRows, r.pattern = q.pattern → r = q := by
  decide

/-- The opcode tells the mnemonic. -/
theorem mnemonic_eq_of_opcode_eq {i j : Instr} (h : opcode i = opcode j) : i.mnemonic = j.mnemonic :=
  congrArg OpcodeRow.mnemonic
    (row_eq_of_pattern_eq i.row (row_mem i) j.row (row_mem j) (by simp only [Instr.row, h]))

theorem toNat_and_high (w : Word) : (w &&& 0xFF000000).toNat = opField w * 2 ^ 24 := by
  have hdiv : (w &&& 0xFF000000).toNat / 2 ^ 24 = opField w := by
    rw [BitVec.toNat_and, Nat.and_div_two_pow]
    exact Nat.and_two_pow_sub_one_of_lt_two_pow (n := 8) (Nat.div_lt_of_lt_mul w.isLt)
  have hmod : (w &&& 0xFF000000).toNat % 2 ^ 24 = 0 := by
    rw [BitVec.toNat_and, Nat.and_mod_two_pow]
    exact Nat.and_zero _
  rw [← Nat.div_add_mod' (w &&& 0xFF000000).toNat (2 ^ 24), hdiv, hmod, Nat.add_zero]

theorem toNat_pattern (i : Instr) : i.row.pattern.toNat = opcode i * 2 ^ 24 := by
  have hlt := opcode_lt i
  rw [Instr.row, BitVec.toNat_ofNat]
  omega

/-- A command's row selects the words with its opcode; where the format is Z, those with operand 0 (R62, R63). -/
theorem selects_row_iff (i : Instr) (w : Word) :
    i.row.selects w = true ↔ opField w = opcode i ∧ (i.format = .z → operandField w = 0) := by
  have hfields := toNat_eq_fields w
  have hpattern := toNat_pattern i
  rw [OpcodeRow.selects, beq_iff_eq, BitVec.toNat_eq, hpattern]
  change (w &&& i.format.mask).toNat = _ ↔ _
  cases i.format with
  | z =>
    rw [Format.mask, show (0xFFFFFFFF : Word) = BitVec.allOnes 32 from rfl, BitVec.and_allOnes]
    have hlt := operandField_lt w
    simp only [forall_const]
    omega
  | n | p =>
    rw [Format.mask, toNat_and_high]
    simp only [reduceCtorEq, false_implies, and_true]
    omega

theorem operand_of_format_z {i : Instr} (h : i.format = .z) : operand i = 0 := by
  cases i with
  | create | append | rewind | rdbits | skip => cases h
  | _ => rfl

theorem payloadOf_length (i : Instr) :
    (payloadOf i).length = if i.format = .p then operand i else 0 := by
  cases i <;> rfl

/-- A row has a command with any operand and payload its format allows. -/
theorem exists_instr_of_row (j : Instr) {n : Nat} {payload : List Byte}
    (hz : j.format = .z → n = 0) (hlen : payload.length = if j.format = .p then n else 0) :
    ∃ i, opcode i = opcode j ∧ operand i = n ∧ payloadOf i = payload := by
  cases j with
  | create => exact ⟨.create payload, rfl, hlen, rfl⟩
  | append => exact ⟨.append payload, rfl, hlen, rfl⟩
  | rewind => exact ⟨.rewind n, rfl, rfl, (List.length_eq_zero_iff.mp hlen).symm⟩
  | rdbits => exact ⟨.rdbits n, rfl, rfl, (List.length_eq_zero_iff.mp hlen).symm⟩
  | skip => exact ⟨.skip n, rfl, rfl, (List.length_eq_zero_iff.mp hlen).symm⟩
  | _ => exact ⟨_, rfl, (hz rfl).symm, (List.length_eq_zero_iff.mp hlen).symm⟩

theorem exists_decode_iff (c : Command) :
    (∃ i, decode c = .ok i) ↔ ∃ r ∈ opcodeRows, r.selects c.word = true ∧
      c.payload.length = if r.format = .p then operandField c.word else 0 := by
  constructor
  · rintro ⟨i, h⟩
    obtain ⟨hop, hn, hp⟩ := decode_eq_ok_iff.mp h
    refine ⟨i.row, row_mem i, (selects_row_iff i _).mpr ⟨hop, fun hz => ?_⟩, ?_⟩
    · rw [hn, operand_of_format_z hz]
    · rw [hp, hn]
      exact payloadOf_length i
  · rintro ⟨r, hr, hsel, hlen⟩
    obtain ⟨j, rfl⟩ := exists_row_eq hr
    obtain ⟨hop, hz⟩ := (selects_row_iff j _).mp hsel
    obtain ⟨i, hi, hn, hp⟩ := exists_instr_of_row j hz hlen
    exact ⟨i, decode_eq_ok_iff.mpr ⟨hop.trans hi.symm, hn.symm, hp.symm⟩⟩

/-! What is rejected (R65, R66) -/

section Rejected
variable {op n : Nat} {payload : List Byte} {e : Reject}

theorem decodeFields_of_reserved (h : op ∉ sampleCommands.map opcode) :
    decodeFields op n payload = .error (.reservedOpcode op) := by
  unfold decodeFields
  split
  case h_20 => rfl
  all_goals exact absurd (by decide) h

theorem decodeFields_of_operand {j : Instr} (hz : j.format = .z) (hn : n ≠ 0) :
    decodeFields (opcode j) n payload = .error (.operandNotZero (opcode j) n) := by
  cases j with
  | create | append | rewind | rdbits | skip => cases hz
  | _ => exact if_neg hn

theorem decodePayload_eq_error {mk : List Byte → Instr} (h : decodePayload n payload mk = .error e) :
    ∃ m k, e = .payloadLength m k := by
  unfold decodePayload at h
  split at h <;> cases h
  exact ⟨_, _, rfl⟩

theorem decodeCount_eq_error {mk : Nat → Instr} (h : decodeCount n payload mk = .error e) :
    ∃ m k, e = .payloadLength m k := by
  unfold decodeCount at h
  split at h <;> cases h
  exact ⟨_, _, rfl⟩

theorem decodePlain_eq_error {i : Instr} (hn : n = 0) (h : decodePlain op n payload i = .error e) :
    ∃ m k, e = .payloadLength m k := by
  rw [decodePlain, if_pos hn] at h
  split at h <;> cases h
  exact ⟨_, _, rfl⟩

/-- Where a row selects the word, only the payload's length can be wrong. -/
theorem decodeFields_eq_error {j : Instr} (hz : j.format = .z → n = 0)
    (h : decodeFields (opcode j) n payload = .error e) : ∃ m k, e = .payloadLength m k := by
  cases j with
  | create | append => exact decodePayload_eq_error h
  | rewind | rdbits | skip => exact decodeCount_eq_error h
  | _ => exact decodePlain_eq_error (hz rfl) h

end Rejected

theorem decode_reserved_iff (c : Command) :
    (∃ op n, decode c = .error (.reservedOpcode op) ∨ decode c = .error (.operandNotZero op n)) ↔
      ∀ r ∈ opcodeRows, r.selects c.word = false := by
  constructor
  · rintro ⟨op, n, h⟩ r hr
    obtain ⟨j, rfl⟩ := exists_row_eq hr
    refine Bool.eq_false_iff.mpr fun hsel => ?_
    obtain ⟨hop, hz⟩ := (selects_row_iff j _).mp hsel
    rw [decode, hop] at h
    obtain h | h := h <;> obtain ⟨m, k, he⟩ := decodeFields_eq_error hz h <;> cases he
  · intro hnone
    by_cases hop : opField c.word ∈ sampleCommands.map opcode
    · obtain ⟨j, -, hj⟩ := List.mem_map.mp hop
      have hsel := Bool.eq_false_iff.mp (hnone j.row (row_mem j))
      rw [Ne, selects_row_iff, ← hj, eq_self, true_and, Classical.not_imp] at hsel
      obtain ⟨hz, hn⟩ := hsel
      refine ⟨opcode j, operandField c.word, .inr ?_⟩
      rw [decode, ← hj, decodeFields_of_operand hz hn]
    · exact ⟨_, 0, .inl (decodeFields_of_reserved hop)⟩

/-- Settles O53: the rows are those of the commands, and a row selects a word by the fields that decode reads. -/
theorem wordsDecodeAsTheOpcodeMapSays : Obligations.WordsDecodeAsTheOpcodeMapSays := by
  unfold Obligations.WordsDecodeAsTheOpcodeMapSays
  refine fun c => ⟨exists_decode_iff c, fun i h r hr hsel => ?_, decode_reserved_iff c⟩
  obtain ⟨j, rfl⟩ := exists_row_eq hr
  obtain ⟨hi, -, -⟩ := decode_eq_ok_iff.mp h
  obtain ⟨hj, -⟩ := (selects_row_iff j _).mp hsel
  exact mnemonic_eq_of_opcode_eq (hi.symm.trans hj)

/-! Fixed facts of the table -/

/-- Settles O54: one row of the table per opcode. -/
theorem opcodeGivesWidthAndSign : Obligations.OpcodeGivesWidthAndSign := by
  unfold Obligations.OpcodeGivesWidthAndSign
  decide

/-- Settles O55: each word decodes by evaluation. -/
theorem specWordsDecode : Obligations.SpecWordsDecode := by
  unfold Obligations.SpecWordsDecode
  decide

/-- Settles O16: one code per status. -/
theorem statusCodesAreZeroOneTwo : Obligations.StatusCodesAreZeroOneTwo := by
  unfold Obligations.StatusCodesAreZeroOneTwo
  refine ⟨rfl, rfl, rfl, fun st => ?_⟩
  cases st <;> decide

end Sys2Proof
end

section
/-! PROOFS. Reads of a fixed number of bits and the backward move: the number RDBITS returns as the field of the whole
buffer (20_memory R57), single-bit reads one after the other (R56), the reads that run out, and what REWIND restores. -/

namespace Sys2Proof.Machine

/-! RDBITS (41_bit_extraction R106 to R111) -/

/-- RDBITS with its bits left, whatever number they spell. -/
theorem exec_rdbits_answerNat {n : Nat} {s : State} (h : s.cur.pos + n ≤ 8 * s.cur.buf.length) :
    exec (.rdbits n) s =
      .next (State.answerNat (assemble (bitsFrom s.cur.buf s.cur.pos n))
        { s with cur := s.cur.moveTo (s.cur.pos + n) }) := by
  rw [exec, execRdbits, readBits_of_le h]
  rfl

theorem State.answerNat_result (n : Nat) (s : State) :
    ∃ r, (s.answerNat n).resp = some r ∧ r.status = .ok ∧ r.result = some (.nat n) := by
  obtain ⟨-, h⟩ | ⟨-, h⟩ := State.answerNat_cases n s <;> rw [h] <;> exact ⟨_, rfl, rfl, rfl⟩

/-- What RDBITS answers with its bits left, VALUE aside. -/
theorem exec_rdbits_result {n : Nat} {s : State} (h : s.cur.pos + n ≤ 8 * s.cur.buf.length) :
    ∃ t r, exec (.rdbits n) s = .next t ∧ t.cur = s.cur.moveTo (s.cur.pos + n) ∧
      t.resp = some r ∧ r.status = .ok ∧
      r.result = some (.nat (assemble (bitsFrom s.cur.buf s.cur.pos n))) := by
  obtain ⟨r, hr, hok, hres⟩ := State.answerNat_result (assemble (bitsFrom s.cur.buf s.cur.pos n))
    { s with cur := s.cur.moveTo (s.cur.pos + n) }
  exact ⟨_, r, exec_rdbits_answerNat h, State.answerNat_cur _ _, hr, hok, hres⟩

/-- An answer from 2^64 on is a free draw. -/
theorem State.answerNat_of_ge {n : Nat} (h : 2 ^ 64 ≤ n) (s : State) :
    s.answerNat n = s.answerFree (.nat n) := if_neg (Nat.not_lt.mpr h)

/-- The two clauses on VALUE of a natural-number read that left the cursor at `c`. -/
theorem State.answerNat_value (s : State) (c : BitCursor) (n : Nat) {t : State}
    (ht : t = State.answerNat n { s with cur := c }) :
    (n < 2 ^ 64 → t = { s with cur := t.cur, resp := some (shownNat n) }) ∧
      (2 ^ 64 ≤ n → ∃ v, t = { s with
        cur := t.cur, draws := s.draws + 1
        resp := some { status := .ok, value := some v, result := some (.nat n) } }) := by
  subst ht
  refine ⟨fun hlt => ?_, fun hge => ⟨Config.freeValue s.draws, ?_⟩⟩
  · rw [State.answerNat_cur, State.answerNat_of_lt hlt]
    rfl
  · rw [State.answerNat_cur, State.answerNat_of_ge hge]
    rfl

/-- Settles O32: ReadBits gives the number, the answer its VALUE, and a read that runs out ends at the end. -/
theorem readBitsAccumulatesMsbFirst : Obligations.ReadBitsAccumulatesMsbFirst := by
  unfold Obligations.ReadBitsAccumulatesMsbFirst
  refine fun s n => ⟨fun hle => ?_, fun ⟨hinv, _⟩ hgt => exec_fixedRead_of_gt rfl hinv hgt⟩
  exact ⟨_, exec_rdbits_answerNat hle, State.answerNat_cur _ _, assemble_bitsFrom_lt _ _ _,
    State.answerNat_value s _ _ rfl⟩

/-- Settles O35: the two outcomes of a command of fixed length. -/
theorem fixedLengthReadsSucceedExactlyWhenTheBitsAreThere :
    Obligations.FixedLengthReadsSucceedExactlyWhenTheBitsAreThere := by
  unfold Obligations.FixedLengthReadsSucceedExactlyWhenTheBitsAreThere
  refine fun i n s hi ⟨hinv, _⟩ => ⟨fun hle => ?_, exec_fixedRead_of_gt hi hinv⟩
  obtain ⟨t, r, ht, hcur, hr, hok⟩ := exec_fixedRead_of_le hi hle
  refine ⟨t, r, ht, hr, hok, ?_, ?_⟩ <;> rw [hcur]
  · rfl
  · exact BitCursor.pos_moveTo _ _

/-- Settles O37: the second read starts where the first ended, and the numbers join as `assemble_bitsFrom_add` says. -/
theorem adjacentReadsConcatenate : Obligations.AdjacentReadsConcatenate := by
  unfold Obligations.AdjacentReadsConcatenate
  intro s a b hle
  obtain ⟨t, ra, ha, hcur, hra, -, hx⟩ := exec_rdbits_result (n := a) (s := s) (by omega)
  obtain ⟨u, rb, hb, hucur, hrb, -, hy⟩ := exec_rdbits_result (n := b) (s := t)
    (by rw [hcur, BitCursor.pos_moveTo, BitCursor.moveTo_buf]; omega)
  obtain ⟨v, rab, hab, hvcur, hrab, -, hxy⟩ := exec_rdbits_result hle
  rw [hcur, BitCursor.pos_moveTo, BitCursor.moveTo_buf] at hy
  rw [hcur, BitCursor.pos_moveTo, BitCursor.moveTo_moveTo] at hucur
  rw [assemble_bitsFrom_add] at hxy
  refine ⟨t, u, v, _, _, ha, hb, hab, ?_, by rw [hra]; exact hx, by rw [hrb]; exact hy,
    by rw [hrab]; exact hxy⟩
  rw [hucur, hvcur, Nat.add_assoc]

/-! The buffer as one big-endian number (20_memory R57) -/

theorem bufNumber_append (buf : List Byte) (b : Byte) :
    bufNumber (buf ++ [b]) = bufNumber buf * 256 + b.toNat := List.foldl_append

/-- The bits of the first `k` bytes spell their big-endian number. -/
theorem assemble_bitsFrom_take (buf : List Byte) {k : Nat} (hk : k ≤ buf.length) :
    assemble (bitsFrom buf 0 (8 * k)) = bufNumber (buf.take k) := by
  induction k with
  | zero => rfl
  | succ k ih =>
    have hbyte : memRead buf k = some buf[k] := List.getElem?_eq_getElem hk
    rw [Nat.mul_succ, assemble_bitsFrom_add, Nat.zero_add, assemble_bitsFrom_byte hbyte,
      ih (by omega), ← List.take_append_getElem hk, bufNumber_append]
    rfl

theorem bufNumber_eq_assemble (buf : List Byte) :
    bufNumber buf = assemble (bitsFrom buf 0 (8 * buf.length)) := by
  rw [assemble_bitsFrom_take buf (Nat.le_refl _), List.take_length]

/-- A field of the big-endian number is the number its bits spell. -/
theorem fieldAt_eq_assemble {buf : List Byte} {p n : Nat} (h : p + n ≤ 8 * buf.length) :
    fieldAt buf p n = assemble (bitsFrom buf p n) := by
  obtain ⟨m, hm⟩ := Nat.exists_eq_add_of_le h
  have hrest := assemble_bitsFrom_lt buf (p + n) m
  have hfield := assemble_bitsFrom_lt buf p n
  rw [fieldAt, bufNumber_eq_assemble, show 8 * buf.length - p - n = m by omega, hm,
    assemble_bitsFrom_add, assemble_bitsFrom_add, Nat.zero_add, Nat.zero_add, Nat.add_comm _ (assemble _),
    Nat.add_mul_div_right _ _ (Nat.two_pow_pos m), Nat.div_eq_of_lt hrest, Nat.zero_add,
    Nat.mul_add_mod_self_right, Nat.mod_eq_of_lt hfield]

/-- Settles O34: the number read is the field of the big-endian number. -/
theorem readBitsReturnsTheBigEndianField : Obligations.ReadBitsReturnsTheBigEndianField := by
  unfold Obligations.ReadBitsReturnsTheBigEndianField
  intro s n hle
  obtain ⟨t, r, ht, hcur, hr, -, hres⟩ := exec_rdbits_result hle
  rw [← fieldAt_eq_assemble hle] at hres
  exact ⟨t, r, ht, hr, hres, by rw [hcur]; rfl, by rw [hcur, BitCursor.pos_moveTo]⟩

/-! Single-bit reads one after the other (20_memory R56) -/

/-- `n` RDBITs with their bits left answer those bits and move by `n`. -/
theorem runAll_rdbits {n : Nat} {s : State} (h : ∀ j < n, s.cur.pos + j < 8 * s.cur.buf.length) :
    ∃ t, runAll (List.replicate n .rdbit) s =
        some ((bitsFrom s.cur.buf s.cur.pos n).map shownNat, t) ∧
      t.cur = s.cur.moveTo (s.cur.pos + n) := by
  induction n generalizing s with
  | zero => exact ⟨s, rfl, s.cur.moveTo_pos.symm⟩
  | succ n ih =>
    have hbit := exec_rdbit_of_lt (h 0 n.succ_pos)
    obtain ⟨t, hrun, hcur⟩ := ih
      (s := { s with cur := s.cur.moveTo (s.cur.pos + 1)
                     resp := some (shownNat (bitAt s.cur.buf s.cur.pos)) })
      (fun j hj => by
        have := h (j + 1) (by omega)
        rw [BitCursor.pos_moveTo, BitCursor.moveTo_buf]
        omega)
    refine ⟨t, ?_, ?_⟩
    · rw [bitsFrom_succ, List.map_cons, List.replicate_succ]
      rw [BitCursor.pos_moveTo] at hrun
      exact runAll_cons hbit rfl hrun
    · rw [hcur, BitCursor.pos_moveTo, BitCursor.moveTo_moveTo, Nat.add_assoc, Nat.add_comm 1 n]

theorem runAll_cons_next {i : Instr} {is : List Instr} {s u : State} {rs : List Response}
    (h : runAll (i :: is) s = some (rs, u)) :
    ∃ t r rs', exec i s = .next t ∧ t.resp = some r ∧ runAll is t = some (rs', u) ∧ rs = r :: rs' := by
  rw [runAll] at h
  split at h
  next t ht =>
    split at h
    next r rs' v hr hrest =>
      cases h
      exact ⟨t, r, rs', ht, hr, hrest, rfl⟩
    next => cases h
  next => cases h
  next => cases h

/-- Where `n` RDBITs all succeed, their bits were left. -/
theorem bits_left_of_runAll_rdbits {n : Nat} {s t : State} {rs : List Response}
    (h : runAll (List.replicate n .rdbit) s = some (rs, t)) (hok : ∀ r ∈ rs, r.status = .ok) :
    ∀ j < n, s.cur.pos + j < 8 * s.cur.buf.length := by
  induction n generalizing s rs with
  | zero => exact nofun
  | succ n ih =>
    obtain ⟨u, r, rs', hu, hr, hrest, rfl⟩ := runAll_cons_next h
    obtain ⟨hrok, hok'⟩ := List.forall_mem_cons.mp hok
    have hlt : s.cur.pos < 8 * s.cur.buf.length := by
      by_contra hge
      rw [exec_oneBitRead_of_ge rfl (Nat.le_of_not_lt hge)] at hu
      cases hu
      cases hr
      cases hrok
    have hcur := exec_fixedRead_moveTo_of_ok (n := 1) rfl hu hr hrok
    intro j hj
    cases j with
    | zero => exact hlt
    | succ j =>
      have hleft := ih hrest hok' j (Nat.lt_of_succ_lt_succ hj)
      rw [hcur, BitCursor.pos_moveTo, BitCursor.moveTo_buf] at hleft
      omega

/-- Settles O36: both end `n` bits on, and the wide read spells the single bits. -/
theorem wideReadIsThatManySingleBitReads : Obligations.WideReadIsThatManySingleBitReads := by
  unfold Obligations.WideReadIsThatManySingleBitReads
  intro s n hle
  obtain ⟨t, hrun, hcur⟩ := runAll_rdbits (n := n) (s := s) (fun j hj => by omega)
  obtain ⟨u, r, hu, hucur, hr, -, hres⟩ := exec_rdbits_result hle
  exact ⟨t, u, r, hrun, hu, hr, hucur.trans hcur.symm, hres⟩

/-! REWIND (40_cursor_and_buffer R89 to R94) -/

/-- Settles O26: the reads moved by `n` over bits that were there, so REWIND restores the cursor and the same bits are read
again. -/
theorem rewindUndoesSingleBitReads : Obligations.RewindUndoesSingleBitReads := by
  unfold Obligations.RewindUndoesSingleBitReads
  intro n s t rs hrun hok
  have hleft := bits_left_of_runAll_rdbits hrun hok
  obtain ⟨t₀, hrun₀, hcur⟩ := runAll_rdbits hleft
  obtain ⟨rfl, rfl⟩ := Prod.mk.inj (Option.some.inj (hrun.symm.trans hrun₀))
  have hpos : t.cur.pos = s.cur.pos + n := by rw [hcur, BitCursor.pos_moveTo]
  have hback : t.cur.moveTo (t.cur.pos - n) = s.cur := by
    rw [hpos, Nat.add_sub_cancel, hcur, BitCursor.moveTo_moveTo, BitCursor.moveTo_pos]
  have hrewind := exec_rewind_of_le (n := n) (s := t) (by omega)
  rw [hback] at hrewind
  obtain ⟨u, hu, -⟩ := runAll_rdbits
    (s := { t with cur := s.cur, resp := some plainOk }) (n := n) hleft
  exact ⟨_, u, hrewind, rfl, hu⟩

/-- Settles O27: TRIM leaves only the bits of one byte behind the cursor. -/
theorem rewindCannotReachTrimmedBytes : Obligations.RewindCannotReachTrimmedBytes := by
  unfold Obligations.RewindCannotReachTrimmedBytes
  intro s t u n ht hu hn
  rw [exec_trim] at ht
  cases ht
  have hpos : s.cur.trimmed.pos < n := by
    have hbio := s.cur.bio.isLt
    simp only [BitCursor.pos, BitCursor.trimmed_byo, BitCursor.trimmed_bio]
    omega
  rw [exec_rewind_of_lt hpos] at hu
  cases hu
  exact ⟨rfl, rfl⟩

/-- A list of commands without CREATE, APPEND and TRIM leaves the buffer. -/
theorem runAll_buf_eq {is : List Instr} {s t : State} {rs : List Response}
    (h : runAll is s = some (rs, t)) (his : ∀ i ∈ is, reshapes i = false) :
    t.cur.buf = s.cur.buf := by
  induction is generalizing s rs with
  | nil => cases h; rfl
  | cons i is ih =>
    obtain ⟨u, r, rs', hu, -, hrest, -⟩ := runAll_cons_next h
    obtain ⟨hi, his⟩ := List.forall_mem_cons.mp his
    rw [ih hrest his, (exec_cursorMove hu).buf_eq hi]

/-- Settles O28: the difference is within the position, and over the same buffer the position is the cursor. -/
theorem checkpointAndRewindRestoreThePosition :
    Obligations.CheckpointAndRewindRestoreThePosition := by
  unfold Obligations.CheckpointAndRewindRestoreThePosition
  intro is s t rs hrun _ hpos
  have hback := exec_rewind_of_le (n := t.cur.pos - s.cur.pos) (s := t) (Nat.sub_le _ _)
  rw [Nat.sub_sub_self hpos] at hback
  refine ⟨_, hback, BitCursor.pos_moveTo _ _, rfl, fun his => ?_⟩
  have hbuf : t.cur.buf = s.cur.buf := runAll_buf_eq hrun his
  exact BitCursor.ext_pos hbuf (BitCursor.pos_moveTo _ _)

/-! INDEX, and the read after an APPEND -/

/-- Settles O24: the position is at most 8 times BUF_CAP, which R6 keeps below 2^64. -/
theorem indexFitsUnderAFiniteCapacity : Obligations.IndexFitsUnderAFiniteCapacity := by
  unfold Obligations.IndexFitsUnderAFiniteCapacity
  intro s cap ⟨hcur, hroom, hcfg⟩ hcap
  rw [State.hasRoom_of_finite hcap] at hroom
  simp only [Config.ok, hcap, decide_eq_true_eq] at hcfg
  refine exec_index_of_lt ?_
  have hpos : s.cur.pos ≤ 8 * s.cur.buf.length := hcur
  omega

/-- The bits from the old end of an extended buffer are the bits appended. -/
theorem bitsFrom_append_right (buf p : List Byte) (n : Nat) :
    bitsFrom (buf ++ p) (8 * buf.length) n = bitsFrom p 0 n :=
  List.map_congr_left fun j _ => by rw [bitAt_append_right, Nat.zero_add]

theorem BitCursor.pos_extend (c : BitCursor) (p : List Byte) : (c.extend p).pos = c.pos := rfl

/-- Settles O43: the failure ends at the end of the buffer, where the appended bits begin. -/
theorem retryAfterAppendReadsTheAppendedBytes : Obligations.RetryAfterAppendReadsTheAppendedBytes := by
  unfold Obligations.RetryAfterAppendReadsTheAppendedBytes
  intro i s t u p n ⟨hinv, _⟩ ht hr hu hn
  obtain ⟨hend, -⟩ := exec_exhausted hinv ht hr rfl
  have hcur : u.cur = (s.cur.moveTo (8 * s.cur.buf.length)).extend p := by
    rw [(exec_cursorMove hu).eq_extend, hend]
  have hbuf : u.cur.buf = s.cur.buf ++ p := by rw [hcur]; rfl
  have hpos : u.cur.pos = 8 * s.cur.buf.length := by
    rw [hcur, BitCursor.pos_extend, BitCursor.pos_moveTo]
  obtain ⟨v, r, hv, hvcur, hvr, hok, hres⟩ := exec_rdbits_result (n := n) (s := u)
    (by rw [hpos, hbuf, List.length_append]; omega)
  rw [hbuf, hpos, bitsFrom_append_right] at hres
  exact ⟨v, r, hv, hvr, hok, hres, by rw [hvcur, BitCursor.pos_moveTo, hpos]⟩

end Sys2Proof.Machine
end

section
/-! PROOFS. The Exp-Golomb reads over code words (42_exp_golomb R130 to R142): RDUE and RDSE answer ReadUE's code value, and
the numeral of `u + 1` after its zeros is a code word of value `u`. -/

namespace Sys2Proof.Machine

theorem exec_rdue_of_done {s : State} {v : Nat} {c : BitCursor} (h : readUE s.cur = .done v c) :
    exec .rdue s = .next (State.answerNat v { s with cur := c }) := by
  rw [exec, execRdue, h]
  rfl

theorem exec_rdse_of_done {s : State} {v : Nat} {c : BitCursor} (h : readUE s.cur = .done v c) :
    exec .rdse s = .next (State.answerSigned v { s with cur := c }) := by
  rw [exec, execRdse, h]
  rfl

/-- Settles O44: ReadUE gives the code value, the answer its VALUE. -/
theorem unsignedGolombDecodesTheCodeWord : Obligations.UnsignedGolombDecodesTheCodeWord := by
  unfold Obligations.UnsignedGolombDecodesTheCodeWord
  intro s lz hzeros hone hle
  exact ⟨_, _, rfl, exec_rdue_of_done (readUE_of_word hzeros hone hle), State.answerNat_cur _ _,
    State.answerNat_value s _ _ rfl⟩

/-- Settles O46: the suffix runs out at the end of the buffer, and RDUE fails there. -/
theorem truncatedSuffixExhaustsTheRead : Obligations.TruncatedSuffixExhaustsTheRead := by
  unfold Obligations.TruncatedSuffixExhaustsTheRead
  intro s lz hzeros hone hin hgt
  exact exec_of_readUE_raised (by decide) (readUE_of_short hzeros hone hin hgt)

/-! The code word of a number (R142) -/

/-- Bits that spell 0 are zeros. -/
theorem bitAt_of_assemble_zero {buf : List Byte} {p n : Nat}
    (h : assemble (bitsFrom buf p n) = 0) : ∀ j < n, bitAt buf (p + j) = 0 := by
  intro j hj
  obtain ⟨m, rfl⟩ := Nat.exists_eq_add_of_le (Nat.succ_le_of_lt hj)
  rw [assemble_bitsFrom_add] at h
  have hfront : assemble (bitsFrom buf p (j + 1)) = 0 :=
    (Nat.mul_eq_zero.mp (Nat.eq_zero_of_add_eq_zero_right h)).resolve_right (Nat.two_pow_pos m).ne'
  rw [assemble_bitsFrom_succ] at hfront
  omega

/-- Where `2l + 1` bits spell a number of `l + 1` binary digits, they are `l` zeros, a 1, and the digits after the first. -/
theorem codeWord_of_assemble {buf : List Byte} {p l m : Nat}
    (h : assemble (bitsFrom buf p (2 * l + 1)) = m) (hlow : 2 ^ l ≤ m) (hhigh : m < 2 ^ (l + 1)) :
    (∀ j < l, bitAt buf (p + j) = 0) ∧ bitAt buf (p + l) = 1 ∧
      2 ^ l + assemble (bitsFrom buf (p + l + 1) l) = m := by
  have hsuffix := assemble_bitsFrom_lt buf (p + l + 1) l
  have hbit := bitAt_lt_two buf (p + l)
  have hsplit : m = (assemble (bitsFrom buf p l) * 2 + bitAt buf (p + l)) * 2 ^ l +
      assemble (bitsFrom buf (p + l + 1) l) := by
    rw [← h, show 2 * l + 1 = l + 1 + l by omega, assemble_bitsFrom_add, assemble_bitsFrom_succ,
      Nat.add_assoc p l 1]
  have hlead : m / 2 ^ l = assemble (bitsFrom buf p l) * 2 + bitAt buf (p + l) := by
    rw [hsplit, Nat.add_comm, Nat.add_mul_div_right _ _ (Nat.two_pow_pos l),
      Nat.div_eq_of_lt hsuffix, Nat.zero_add]
  have hdigit : m / 2 ^ l = 1 :=
    Nat.div_eq_of_lt_le (by omega) (by rw [Nat.pow_succ] at hhigh; omega)
  obtain ⟨hzero, hone⟩ : assemble (bitsFrom buf p l) = 0 ∧ bitAt buf (p + l) = 1 := by omega
  refine ⟨bitAt_of_assemble_zero hzero, hone, ?_⟩
  rw [hsplit, hzero, hone, Nat.zero_mul, Nat.zero_add, Nat.one_mul]

/-- Settles O47: the numeral of `u + 1` is the code word whose value is `u`. -/
theorem everyNumberHasItsCodeWord : Obligations.EveryNumberHasItsCodeWord := by
  unfold Obligations.EveryNumberHasItsCodeWord
  intro s u hle hspell
  obtain ⟨hzeros, hone, hvalue⟩ :=
    codeWord_of_assemble hspell (Nat.log2_self_le u.succ_ne_zero) Nat.lt_log2_self
  have hread := readUE_of_word hzeros hone (by omega)
  obtain ⟨r, hr, hok, hres⟩ := State.answerNat_result
    (2 ^ Nat.log2 (u + 1) - 1 +
      assemble (bitsFrom s.cur.buf (s.cur.pos + Nat.log2 (u + 1) + 1) (Nat.log2 (u + 1))))
    { s with cur := s.cur.moveTo (s.cur.pos + 2 * Nat.log2 (u + 1) + 1) }
  refine ⟨_, r, exec_rdue_of_done hread, hr, hok, ?_, ?_⟩
  · have hpos := Nat.two_pow_pos (Nat.log2 (u + 1))
    rw [hres]
    congr 2
    omega
  · rw [State.answerNat_cur, BitCursor.pos_moveTo, Nat.add_assoc]

/-! RDSE (R136 to R139) -/

/-- The result of a code value up to 2^64 - 2 is a 64-bit integer, so VALUE shows it. -/
theorem toInt_ofInt_zigzag {v : Nat} (h : v < 2 ^ 64 - 1) :
    (BitVec.ofInt 64 (zigzag v)).toInt = zigzag v := by
  have hrange := two_mul_zigzag_cases v
  exact BitVec.toInt_ofInt_eq_self (by decide) (by omega) (by omega)

/-- What RDSE answers over the code value `v`. -/
theorem State.answerSigned_value (v : Nat) (s : State) :
    ∃ x, (s.answerSigned v).resp =
        some { status := .ok, result := some (.int (zigzag v)), value := some x } ∧
      (v < 2 ^ 64 - 1 → x = BitVec.ofInt 64 (zigzag v) ∧ (s.answerSigned v).draws = s.draws) ∧
      (2 ^ 64 - 1 ≤ v → (s.answerSigned v).draws = s.draws + 1) := by
  obtain ⟨hlt, h⟩ | ⟨hge, h⟩ := State.answerSigned_cases v s <;> rw [h]
  · exact ⟨_, rfl, fun _ => ⟨rfl, rfl⟩, fun hge => absurd hlt (Nat.not_lt.mpr hge)⟩
  · exact ⟨_, rfl, fun hlt => absurd hge (Nat.not_le.mpr hlt), fun _ => rfl⟩

/-- Settles O48: both commands conclude the same ReadUE. -/
theorem signedGolombFollowsTheUnsigned : Obligations.SignedGolombFollowsTheUnsigned := by
  unfold Obligations.SignedGolombFollowsTheUnsigned
  intro s
  cases hread : readUE s.cur with
  | raised e c =>
    exact ⟨_, _, exec_of_readUE_raised (by decide) hread, exec_of_readUE_raised (by decide) hread, rfl,
      .inl ⟨_, rfl, e.status_ne_ok, rfl⟩⟩
  | done v c =>
    obtain ⟨r, hr, hok, hres⟩ := State.answerNat_result v { s with cur := c }
    obtain ⟨x, hx, hshown, hfree⟩ := State.answerSigned_value v { s with cur := c }
    refine ⟨_, _, exec_rdse_of_done hread, exec_rdue_of_done hread, ?_,
      .inr ⟨v, zigzag v, x, r, hr, hok, hres, hx, two_mul_zigzag_of_odd, two_mul_zigzag_of_even,
        fun hle => ?_, hfree⟩⟩
    · rw [State.answerSigned_cur, State.answerNat_cur]
    · obtain ⟨rfl, hdraws⟩ := hshown (by omega)
      exact ⟨toInt_ofInt_zigzag (by omega), hdraws⟩

/-- Settles O49: ReadUE gives the code value, the answer its zig-zag. -/
theorem signedGolombDecodesTheCodeWord : Obligations.SignedGolombDecodesTheCodeWord := by
  unfold Obligations.SignedGolombDecodesTheCodeWord
  intro s lz hzeros hone hle
  have hread := exec_rdse_of_done (readUE_of_word hzeros hone hle)
  obtain ⟨hcur, hport, hcfg⟩ := State.answerSigned_frame
    (2 ^ lz - 1 + assemble (bitsFrom s.cur.buf (s.cur.pos + lz + 1) lz))
    { s with cur := s.cur.moveTo (s.cur.pos + 2 * lz + 1) }
  obtain ⟨x, hx, hshown, -⟩ := State.answerSigned_value
    (2 ^ lz - 1 + assemble (bitsFrom s.cur.buf (s.cur.pos + lz + 1) lz))
    { s with cur := s.cur.moveTo (s.cur.pos + 2 * lz + 1) }
  exact ⟨_, _, _, x, rfl, rfl, hread, hcur, hport, hcfg, hx, fun hv => hshown (by omega)⟩

end Sys2Proof.Machine
end
